-- ==== Sys2Proof/Word.lean ====
section
/-! DEFINITION. The plain data the core moves: bytes, bits, names and texts. Every quantity the spec
calls a number is an unbounded `Nat` or `Int` (00_scope.md R8); a byte vector is used only where the spec
speaks of bytes. -/

namespace Sys2Proof

/-- A byte of a command or of the raw buffer: an integer in [0, 255] (00_scope.md R8). -/
abbrev Byte := BitVec 8

/-- A logic level: `false` is the bit 0, `true` the bit 1 (00_scope.md R8, 40_bus.md R127). -/
abbrev Bit := Bool

/-- A control-signal name: a byte string, compared byte for byte (30_encoding.md R92). -/
abbrev Name := List Byte

/-- What the decode collaborator answers (00_scope.md R7). -/
abbrev Text := String

end Sys2Proof
end

