-- ==== Sys2Proof/Config.lean ====
section
/-! DEFINITION. The configuration record of 00_scope.md R7, fixed when the machine is constructed, and the
two free values of the spec: bytes of INIT_BYTES nobody gives, and the decode collaborator. -/

namespace Sys2Proof

/-- ARCH, the name of a control-signal table. Only `X86` has a table; any other value is refused at
construction (70_reset_and_hazards.md R250). -/
inductive Arch where
  | x86
  | other (name : String)
deriving DecidableEq, Repr

/-- MODE, the addressing mode: it selects a register width and is no privilege mode (10_state.md R22). -/
inductive Mode where
  | realMode
  | protectedMode
  | longMode
deriving DecidableEq, Repr

/-- The configuration record (00_scope.md R7). QCAP is the constant 6 (`Config.queueCapacity`), ENC is
no part of the block, and DEC is `Config.dec`. -/
structure Config where
  /-- ARCH. -/
  arch : Arch
  /-- MODE. -/
  mode : Mode
  /-- L, the number of address lines. -/
  addressLines : Nat
  /-- WORD_BYTES. -/
  wordBytes : Nat
  /-- BYTES_PER_CHIP. -/
  bytesPerChip : Nat
  /-- LOC_PER_CHIP. -/
  locPerChip : Nat
  /-- NPTR, the number of extra pointer registers. -/
  nptr : Nat
  /-- NSEG, the number of extra segment registers. -/
  nseg : Nat
  /-- INIT_BYTES as far as it is given: byte `a` of the list is `INIT_BYTES[a]`; a byte past its end is
  the free value `Config.freeInitByte a` (log entry 2). -/
  initBytes : List Byte
deriving DecidableEq, Repr

/-- FREE VALUE (log entry 2): `INIT_BYTES[a]` where the configuration does not give it. It has no body:
nothing can be proved of its value (20_memory.md R61). -/
opaque Config.freeInitByte : Nat → Byte

/-- FREE VALUE (log entry 4): DEC, the decode collaborator, applied to a word and a word size in bits.
It has no body: the block does not contain it (44_cpu.md R203). -/
opaque Config.dec : Nat → Nat → Text

/-- The only property of the collaborator a claim may use, as a premise on an encoder `enc`: DEC gives
back every text whose encoding fits the word (44_cpu.md R203). -/
def Config.RoundTrip (enc : Text → Nat → Nat) : Prop :=
  ∀ (t : Text) (b : Nat), (b = 8 ∨ b = 16 ∨ b = 32) → enc t b < 2 ^ b → Config.dec (enc t b) b = t

/-- The source's own example (70_reset_and_hazards.md R254, `CFG_A` of 95_test_vectors.md): REAL mode,
10 address lines, 1-byte words, 128 bytes and 128 locations a chip, no extra registers, nothing known of
INIT_BYTES. DESIGN CHOICE (log entry 1): `State.reset` is the machine of this configuration. -/
def Config.sourceExample : Config where
  arch := .x86
  mode := .realMode
  addressLines := 10
  wordBytes := 1
  bytesPerChip := 128
  locPerChip := 128
  nptr := 0
  nseg := 0
  initBytes := []

end Sys2Proof
end

