-- ==== Sys2Proof/Machine/Topology.lean ====
section
/-! DEFINITION. The constants derived from the configuration: the memory topology of 10_state.md R21, the
register range of R22, and the checks construction makes of them (70_reset_and_hazards.md R251). -/

namespace Sys2Proof

/-- QCAP (00_scope.md R7, 10_state.md R41). -/
def Config.queueCapacity : Nat := 6

/-- TOTAL, the bytes of the raw buffer (10_state.md R21). -/
def Config.totalBytes (c : Config) : Nat := 2 ^ c.addressLines * c.wordBytes

/-- N, the number of chips (10_state.md R21). -/
def Config.numberOfChips (c : Config) : Nat := c.totalBytes / c.bytesPerChip

/-- CSB, the decoder's inputs (10_state.md R21). -/
def Config.chipSelectBits (c : Config) : Nat := Nat.log2 c.numberOfChips

/-- DEPTH (10_state.md R21). -/
def Config.addressingDepth (c : Config) : Nat := Nat.log2 c.locPerChip

/-- MASK, the low-address mask of the read path (10_state.md R21). -/
def Config.addressMask (c : Config) : Nat := 2 ^ c.addressingDepth - 1

/-- WORD_BITS (10_state.md R21). -/
def Config.wordBits (c : Config) : Nat := 8 * c.wordBytes

/-- W(MODE), the width of a pointer register (10_state.md R22). -/
def Mode.width : Mode → Nat
  | .realMode => 16
  | .protectedMode => 32
  | .longMode => 64

/-- MAX(MODE), the largest offset (10_state.md R22). -/
def Mode.maxOffset (m : Mode) : Nat := 2 ^ m.width - 1

/-- The largest segment base, in every mode (10_state.md R33). -/
def maxBase : Nat := 0xFFFF

/-- `x` is 2^k for some k (70_reset_and_hazards.md R251). -/
def isPowerOfTwo (x : Nat) : Bool := x == 2 ^ Nat.log2 x

/-- The topology checks of Memory's construction (70_reset_and_hazards.md R251). -/
def Config.topologyOk (c : Config) : Bool :=
  c.bytesPerChip != 0 && c.totalBytes % c.bytesPerChip == 0 && isPowerOfTwo c.numberOfChips &&
    (c.locPerChip != 0 && isPowerOfTwo c.locPerChip) &&
    c.chipSelectBits + c.addressingDepth == c.addressLines

/-- The supported word sizes (20_memory.md R70). -/
def Config.wordSizeOk (c : Config) : Bool := c.wordBytes == 1 || c.wordBytes == 2 || c.wordBytes == 4

/-- `INIT_BYTES[a]`: as the configuration gives it, else the free value (20_memory.md R61, log entry 2). -/
def Config.initByte (c : Config) (a : Nat) : Byte := c.initBytes.getD a (Config.freeInitByte a)

end Sys2Proof
end

