-- ==== Sys2Proof/Machine/Decoder.lean ====
section
/-! DEFINITION. The combinational decoder of 42_decoder.md: gates, truth table, decode terms and the
chip-select vector, computed from the gates and never stored. -/

namespace Sys2Proof.Machine

/-- NOT (42_decoder.md R160). -/
def gateNot (a : Bit) : Bit := !a

/-- AND (R161). -/
def gateAnd (a b : Bit) : Bit := a && b

/-- OR (R162). -/
def gateOr (a b : Bit) : Bit := a || b

/-- CASCADE_AND: AND folded from the first element to the last (R163). Its callers check that there are at
least two inputs (R163, R171). -/
def cascade : List Bit → Bit
  | [] => true
  | b :: bs => bs.foldl gateAnd b

/-- Row `i` of `TT(n)`: the bits of `i`, most significant first (R164). -/
def truthRow (n i : Nat) : List Bit := (List.range n).map (fun k => i.testBit (n - 1 - k))

/-- `TT(n)`: rows 0 to 2^n - 1 (R164). -/
def truthTableRows (n : Nat) : List (List Bit) := (List.range (2 ^ n)).map (truthRow n)

/-- A literal of a decode term: the input, or its complement, as the row's bit says (R170, 90_conflicts.md C1). -/
def literal (rowBit input : Bit) : Bit := if rowBit then input else gateNot input

/-- `term(r, x)`: row `r`'s decode term on the input pattern `x` (R170). -/
def decodeTerm (c : Config) (r : Nat) (x : List Bit) : Bit :=
  cascade (List.zipWith literal (truthRow c.chipSelectBits r) x)

/-- `DECODED[r]`: row `r`'s term on its own pattern (R171). -/
def decodedBit (c : Config) (r : Nat) : Bit := decodeTerm c r (truthRow c.chipSelectBits r)

/-- DECODED, the chip-select vector (10_state.md R24). -/
def decodedVector (c : Config) : List Bit := (List.range c.numberOfChips).map (decodedBit c)

/-- `getChipSelectionValue`, for an index already in [0, N) (R172). -/
def chipSelection (c : Config) (a : Nat) : Option Nat := if decodedBit c a then some a else none

/-- The decoder's outputs for the input `x` (R173). -/
def oneHotOutput (c : Config) (x : Nat) : List Bit :=
  (List.range c.numberOfChips).map (fun r => decodeTerm c r (truthRow c.chipSelectBits x))

end Sys2Proof.Machine
end

