-- ==== Sys2Proof/Machine/State.lean ====
section
/-! DEFINITION. The state record of 10_state.md R25 as plain data, with the configuration it belongs to and
the host's two ports (the command stream and the last result), the fault kinds of 60_exceptions.md R220, and
the state at the end of construction (70_reset_and_hazards.md R259). -/

namespace Sys2Proof.Machine

/-- The bus-interface unit's phase (10_state.md R42). -/
inductive BiuPhase where
  | idle
  | addressSent
  | readSignaled
  | awaitingData
  | dequeueReady
deriving DecidableEq, Repr

/-- A control line of the X86 signal table (10_state.md R23). -/
inductive Signal where
  | read
  | write
  | memoryIo
deriving DecidableEq, Repr

/-- CTRL, one latch per control line (10_state.md R40). -/
structure ControlLatches where
  read : Option Bool
  write : Option Bool
  memoryIo : Option Bool
deriving DecidableEq, Repr

/-- A fault `(K, info)` of the core: thirteen kinds, each with the value its raising rule names
(60_exceptions.md R220). Raising one is a NEXT state with FAULT set (R230). -/
inductive CoreFault where
  /-- Code 1: a control name not in the signal table. -/
  | invalidSignalError (name : Name)
  /-- Code 2: a write start address outside the buffer. -/
  | addressOutOfRangeError (a : Int)
  /-- Code 3: a decoder index outside the chips. -/
  | indexError (a : Int)
  /-- Code 4: no chip selected in the read response; unreachable (R221). -/
  | noChipSelectedError (a : Nat)
  /-- Code 5: the topology check fails; construction only. -/
  | specMismatchError (bytesPerChip locPerChip addressLines : Nat)
  /-- Code 6: an offset outside the mode's range. -/
  | offsetRangeError (v : Int)
  /-- Code 7: CASCADE_AND, or the decoder's construction, with fewer than two inputs. -/
  | arityError (k : Nat)
  /-- Code 8: FETCH outside REAL mode. -/
  | modeNotSupported (m : Mode)
  /-- Code 9: a segment base outside 16 bits. -/
  | baseRangeError (v : Int)
  /-- Code 10: a word range that leaves the buffer. -/
  | bufferBoundsFault (a : Int)
  /-- Code 11: a stored value wider than the word. -/
  | valueWidthFault (v : Int)
  /-- Code 12: bytes that are no command, with their header byte. -/
  | illegalCommand (op : Byte)
  /-- Code 13: an operand byte that is no bit, or a register number the command does not take. -/
  | illegalOperand (operand : Nat)
deriving DecidableEq, Repr

/-- What one command returns to the host (30_encoding.md R101, 60_exceptions.md R230). -/
inductive Result where
  /-- Commands that return nothing. -/
  | unit
  /-- GET_OFFSET, GET_BASE, RAW_LOAD. -/
  | nat (v : Nat)
  /-- NOT, AND, OR, CASCADE_AND. -/
  | bit (b : Bit)
  /-- TRUTH_TABLE. -/
  | rows (t : List (List Bit))
  /-- DEC_LOOKUP; `none` is the source's null. -/
  | chip (c : Option Nat)
  /-- DEC_ONEHOT. -/
  | bits (bs : List Bit)
  /-- FETCH: was the word enqueued? -/
  | status (ok : Bool)
  /-- DECODE: the word and the collaborator's text, or nothing. -/
  | decoded (d : Option (Nat × Text))
  /-- A command that faulted, or was issued to a halted machine. -/
  | fault (f : CoreFault)
deriving DecidableEq, Repr

/-- The machine's state: the record of 10_state.md R25, the configuration no command changes, and the
model's own two host ports `stream` and `result`. -/
structure State where
  /-- The configuration record (00_scope.md R7); constant (R20, log entry 1). -/
  cfg : Config
  /-- IP, the instruction-pointer offset (R31). -/
  ip : Nat
  /-- SEG, the segment base (R33). -/
  seg : Nat
  /-- P0 .. P(NPTR-1) (R32). -/
  p : List Nat
  /-- S0 .. S(NSEG-1) (R33). -/
  segs : List Nat
  /-- QUEUE, the prefetch queue, head first (R41). -/
  queue : List Nat
  /-- MEM: the bytes commands have written, by rising address; every other byte of the buffer is its
  INIT_BYTES value (R44, 20_memory.md R61, log entry 3). -/
  mem : List Host.Cell
  /-- ALATCH (R40). -/
  alatch : Option Nat
  /-- DLATCH (R40). -/
  dlatch : Option Nat
  /-- CTRL (R40). -/
  ctrl : ControlLatches
  /-- BIU (R42). -/
  biu : BiuPhase
  /-- FAULT, sticky (R43). -/
  fault : Option CoreFault
  /-- MODEL'S OWN (log entry 5): command bytes the host has delivered and the block has not taken. -/
  stream : List Byte
  /-- MODEL'S OWN (log entry 6): what the last command returned to the host. -/
  result : Option Result
deriving DecidableEq, Repr

/-- Why the model stops without a next state. No command of a machine that construction built does
(statement `NoCommandStopsAConstructedMachine`). -/
inductive Fault where
  /-- `construct`: the configuration's construction raises this fault, and there is no machine
  (60_exceptions.md R222). Safe: no state is invented. -/
  | construction (f : CoreFault)
  /-- The read response of FETCH or CTRL_SEND, in a state whose configuration no construction accepts:
  the word at this address would leave the buffer, where MemRead is not defined (20_memory.md R62, R81).
  Safe: the model stops (log entry 8). -/
  | outsideBuffer (a : Nat)
deriving DecidableEq, Repr

/-- What the model gives no meaning to. -/
inductive Refusal where
  /-- `exec`, for an instruction without a meaning; no arm uses it now. Safe. -/
  | notModelled (mnemonic : String)
  /-- `construct`: an ARCH without a signal table (70_reset_and_hazards.md R250). Safe: the spec refuses it. -/
  | unsupportedArch (name : String)
  /-- `construct`: a word size other than 1, 2 or 4 bytes (70_reset_and_hazards.md R250). Safe: the spec refuses it. -/
  | unsupportedWordBytes (n : Nat)
deriving DecidableEq, Repr

/-- The state at the end of a construction with configuration `c` (70_reset_and_hazards.md R259): MEM is
INIT_BYTES, so nothing is listed. The two host ports are empty (log entries 5 and 6). -/
def State.initial (c : Config) : State where
  cfg := c
  ip := 0
  seg := 0
  p := List.replicate c.nptr 0
  segs := List.replicate c.nseg 0
  queue := []
  mem := []
  alatch := none
  dlatch := none
  ctrl := { read := none, write := none, memoryIo := none }
  biu := .idle
  fault := none
  stream := []
  result := none

/-- The machine right after construction of the source's example configuration (log entry 1). -/
def State.reset : State := State.initial Config.sourceExample

end Sys2Proof.Machine
end

