-- ==== Sys2Proof/Machine/Memory.lean ====
section
/-! DEFINITION. The raw buffer of 20_memory.md: a canonical list of the bytes commands have written, over
INIT_BYTES, with the two access primitives MemRead and MemWrite. Byte order is decided here and nowhere else. -/

namespace Sys2Proof.Machine

/-- The written bytes, by address. -/
abbrev Memory := List Host.Cell

/-- What an address the list does not hold reads as: no value of its own, so that the machine takes the
byte of INIT_BYTES (20_memory.md R61, log entry 3). -/
def Memory.unlisted : Option Byte := none

/-- The byte commands have written at `a`, if any. -/
def Memory.get : Memory → Nat → Option Byte
  | [], _ => Memory.unlisted
  | (k, b) :: m, a => if k = a then some b else Memory.get m a

/-- Write one byte, keeping the addresses strictly rising. -/
def Memory.put : Memory → Nat → Byte → Memory
  | [], a, b => [(a, b)]
  | (k, x) :: m, a, b =>
    if a < k then (a, b) :: (k, x) :: m
    else if a = k then (a, b) :: m
    else (k, x) :: Memory.put m a b

/-- Every address of the list is above `k`, and they rise strictly. -/
def Memory.risesAbove : Option Nat → Memory → Bool
  | _, [] => true
  | none, (a, _) :: m => Memory.risesAbove (some a) m
  | some k, (a, _) :: m => decide (k < a) && Memory.risesAbove (some a) m

/-- The canonical form: addresses strictly rising. No entry equals what an unlisted address reads as,
since that is no value (log entry 3). -/
def Memory.wf (m : Memory) : Bool := Memory.risesAbove none m

/-- Write the bytes one after another from address `a`. -/
def Memory.putBytes : Memory → Nat → List Byte → Memory
  | m, _, [] => m
  | m, a, b :: bs => Memory.putBytes (Memory.put m a b) (a + 1) bs

/-- The `n` bytes of `v`, least significant first (20_memory.md R63; also the register byte image of
10_state.md R34). -/
def littleEndian : Nat → Nat → List Byte
  | 0, _ => []
  | n + 1, v => BitVec.ofNat 8 v :: littleEndian n (v / 256)

/-- The byte image of a register of `width` bits that holds `v` (10_state.md R34). -/
def registerImage (width v : Nat) : List Byte := littleEndian (width / 8) v

/-- `MEM[a]`: the byte last written there, else INIT_BYTES (20_memory.md R61). -/
def State.byteAt (s : State) (a : Nat) : Byte := (Memory.get s.mem a).getD (s.cfg.initByte a)

/-- `MemRead(a, n)`: the sum of `MEM[a+i] * 2^(8i)` (20_memory.md R62). -/
def State.memRead (s : State) (a : Nat) : Nat → Nat
  | 0 => 0
  | n + 1 => (s.byteAt a).toNat + 256 * s.memRead (a + 1) n

/-- `MemWrite(a, n, v)` (20_memory.md R63). -/
def State.memWrite (s : State) (a n v : Nat) : State :=
  { s with mem := Memory.putBytes s.mem a (littleEndian n v) }

end Sys2Proof.Machine
end

