-- ==== Sys2Proof/Machine/Operands.lean ====
section
/-! DEFINITION. The operand forms: bit bytes, register numbers and signal names (30_encoding.md R92,
10_state.md R30 and R23). -/

namespace Sys2Proof.Machine

/-- The bit an operand byte stands for; any other byte is an illegal operand (30_encoding.md R92). -/
def bitOfByte (b : Byte) : Option Bit :=
  if b = 0 then some false else if b = 1 then some true else none

/-- The first byte of a sequence that is no bit (42_decoder.md R163). -/
def firstBadBit (bs : List Byte) : Option Byte := bs.find? (fun b => (bitOfByte b).isNone)

/-- The bits of a sequence in which every byte is one. -/
def bitsOfBytes (bs : List Byte) : List Bit := bs.filterMap bitOfByte

/-- A register of the file (10_state.md R30). -/
inductive RegName where
  | ip
  | seg
  | pointer (i : Nat)
  | segment (j : Nat)
deriving DecidableEq, Repr

/-- The register a number names: 0 is IP, 1 is SEG, then the NPTR pointer registers, then the NSEG segment
registers; any other number is no register (10_state.md R30). -/
def regOfNumber (c : Config) (r : Nat) : Option RegName :=
  if r = 0 then some .ip
  else if r = 1 then some .seg
  else if r < 2 + c.nptr then some (.pointer (r - 2))
  else if r < 2 + c.nptr + c.nseg then some (.segment (r - (2 + c.nptr)))
  else none

/-- The offset of a pointer-kind register; nothing for any other number (10_state.md R36). -/
def State.pointer (s : State) (r : Nat) : Option Nat :=
  match regOfNumber s.cfg r with
  | some .ip => some s.ip
  | some (.pointer i) => s.p[i]?
  | _ => none

/-- The base of a segment register; nothing for any other number (10_state.md R36). -/
def State.segment (s : State) (r : Nat) : Option Nat :=
  match regOfNumber s.cfg r with
  | some .seg => some s.seg
  | some (.segment j) => s.segs[j]?
  | _ => none

/-- `reg[R] <- V` for a pointer-kind register (41_registers.md R140). -/
def State.setPointer (s : State) (r v : Nat) : State :=
  match regOfNumber s.cfg r with
  | some .ip => { s with ip := v }
  | some (.pointer i) => { s with p := s.p.set i v }
  | _ => s

/-- `reg[R] <- V` for a segment register (41_registers.md R144). -/
def State.setSegment (s : State) (r v : Nat) : State :=
  match regOfNumber s.cfg r with
  | some .seg => { s with seg := v }
  | some (.segment j) => { s with segs := s.segs.set j v }
  | _ => s

/-- `"READ"`. -/
def readName : Name := [0x52, 0x45, 0x41, 0x44]

/-- `"WRITE"`. -/
def writeName : Name := [0x57, 0x52, 0x49, 0x54, 0x45]

/-- `"MEMORY_IO"`. -/
def memoryIoName : Name := [0x4D, 0x45, 0x4D, 0x4F, 0x52, 0x59, 0x5F, 0x49, 0x4F]

/-- SIGNALS(ARCH): the control-signal table (10_state.md R23). No table but X86's is known, and no machine
of another ARCH is ever built. -/
def signalTable : Arch → List (Name × Signal)
  | .x86 => [(readName, .read), (writeName, .write), (memoryIoName, .memoryIo)]
  | .other _ => []

/-- Signal-name validation: the line a name stands for, by exact comparison (40_bus.md R125). -/
def signalOfName (a : Arch) (name : Name) : Option Signal := (signalTable a).lookup name

end Sys2Proof.Machine
end

