-- ==== Sys2Proof/Machine/Ops.lean ====
section
/-! DEFINITION. The named operations every command is made of: how a command ends (`ret`, `raise`, `issue`),
the bus drives with the Memory device's read response, and the prefetch queue. -/

namespace Sys2Proof.Machine

/-- What a command's meaning answers. -/
abbrev Outcome := Host.Outcome State Fault Refusal

/-! ### Field updates -/

/-- `ALATCH <- some a`. -/
def State.setAlatch (s : State) (a : Nat) : State := { s with alatch := some a }

/-- `DLATCH <- some d`. -/
def State.setDlatch (s : State) (d : Nat) : State := { s with dlatch := some d }

/-- `CTRL[line] <- some v`. -/
def State.setControl (s : State) (line : Signal) (v : Bool) : State :=
  match line with
  | .read => { s with ctrl := { s.ctrl with read := some v } }
  | .write => { s with ctrl := { s.ctrl with write := some v } }
  | .memoryIo => { s with ctrl := { s.ctrl with memoryIo := some v } }

/-- `BIU <- ph`. -/
def State.setBiu (s : State) (ph : BiuPhase) : State := { s with biu := ph }

/-- `QUEUE <- q`. -/
def State.setQueue (s : State) (q : List Nat) : State := { s with queue := q }

/-- `IP <- v`. -/
def State.setIp (s : State) (v : Nat) : State := { s with ip := v }

/-- `FAULT <- some f`. -/
def State.setFault (s : State) (f : CoreFault) : State := { s with fault := some f }

/-- The answer the host gets. -/
def State.setResult (s : State) (r : Result) : State := { s with result := some r }

/-- The command bytes still to be taken. -/
def State.setStream (s : State) (bs : List Byte) : State := { s with stream := bs }

/-! ### How a command ends -/

/-- `ret v`: the command ends and returns `v` to the host (00_scope.md R10). -/
def ret (r : Result) (s : State) : Outcome := .next (s.setResult r)

/-- TAKING A FAULT, `raise K(info)`: the command stops here, the effects so far are kept, FAULT is set and
the host gets the fault (60_exceptions.md R230). No state is saved and there is no handler; there is no
return from a fault (R232). -/
def raise (f : CoreFault) (s : State) : Outcome := .next ((s.setFault f).setResult (.fault f))

/-- A command issued to the machine: a halted machine takes no step and answers with its recorded fault
(60_exceptions.md R231). -/
def issue (s : State) (body : Outcome) : Outcome :=
  match s.fault with
  | some f => ret (.fault f) s
  | none => body

/-! ### Buses -/

/-- `Drive(ADDRESS, a)`: no listener (40_bus.md R123). -/
def driveAddress (s : State) (a : Nat) : State := s.setAlatch a

/-- `Drive(DATA, d)`, with what the BIU's data listener captures: `d` while BIU is READ_SIGNALED, else
nothing (40_bus.md R123). -/
def driveData (s : State) (d : Nat) : State × Option Nat :=
  (s.setDlatch d, if s.biu = .readSignaled then some d else none)

/-- How a drive of a control line ends, its listener run to completion (40_bus.md R124). -/
inductive Response where
  /-- The drive returned, with what the BIU's data listener captured. -/
  | completed (s : State) (captured : Option Nat)
  /-- A listener raised: the enclosing command stops with this fault (R124). -/
  | raised (s : State) (f : CoreFault)
  /-- MemRead at this address is not defined (`Fault.outsideBuffer`). -/
  | undefinedRead (a : Nat)
deriving DecidableEq, Repr

/-- The address the read path reads: `A & MASK` (43_memory_ops.md R184). -/
def internalAddress (c : Config) (a : Nat) : Nat := a &&& c.addressMask

/-- The Memory device's read response (43_memory_ops.md R184). -/
def memoryReadResponse (s : State) : Response :=
  match s.alatch with
  | none => .completed s none
  | some a =>
    if s.cfg.numberOfChips ≤ a then .raised s (.indexError a)
    else match chipSelection s.cfg a with
      | none => .raised s (.noChipSelectedError a)
      | some _ =>
        if s.cfg.totalBytes < internalAddress s.cfg a + s.cfg.wordBytes then
          .undefinedRead (internalAddress s.cfg a)
        else
          let d := driveData s (s.memRead (internalAddress s.cfg a) s.cfg.wordBytes)
          .completed d.1 d.2

/-- `Drive(CONTROL line, v)`: the latch, then the listener, which is Memory's for READ driven true and none
otherwise (40_bus.md R123 and R124). -/
def driveControl (s : State) (line : Signal) (v : Bool) : Response :=
  match line, v with
  | .read, true => memoryReadResponse (s.setControl .read true)
  | line, v => .completed (s.setControl line v) none

/-- A drive by name, validated first (40_bus.md R125). -/
def driveNamed (s : State) (name : Name) (v : Bool) : Response :=
  match signalOfName s.cfg.arch name with
  | none => .raised s (.invalidSignalError name)
  | some line => driveControl s line v

/-! ### Prefetch queue and address -/

/-- PA (44_cpu.md R200): unbounded, no wrap. -/
def physicalAddress (s : State) : Nat := s.seg * 16 + s.ip

/-- Is there room in the prefetch queue? -/
def State.hasRoom (s : State) : Bool := decide (s.queue.length < Config.queueCapacity)

/-- Enqueue: append when there is room, else leave the queue alone (10_state.md R41). -/
def enqueue (s : State) (w : Nat) : State :=
  if s.hasRoom then s.setQueue (s.queue ++ [w]) else s

/-! ### Memory ports -/

/-- A word at `a` lies in the buffer (20_memory.md R68). -/
abbrev WordInBuffer (c : Config) (a : Int) : Prop := 0 ≤ a ∧ a + c.wordBytes ≤ c.totalBytes

/-- A value fits the word (20_memory.md R69). -/
abbrev FitsWord (c : Config) (v : Int) : Prop := 0 ≤ v ∧ v < (2 ^ c.wordBits : Nat)

/-- The checks and the store that RAW_STORE and MEM_WRITE share (43_memory_ops.md R180 and R182). -/
def storeWord (s : State) (a v : Int) : Outcome :=
  if ¬ WordInBuffer s.cfg a then raise (.bufferBoundsFault a) s
  else if ¬ FitsWord s.cfg v then raise (.valueWidthFault v) s
  else ret .unit (s.memWrite a.toNat s.cfg.wordBytes v.toNat)

/-- An `Int` operand as an index in [0, N) (42_decoder.md R172). -/
def chipIndex (c : Config) (a : Int) : Option Nat :=
  if 0 ≤ a ∧ a < c.numberOfChips then some a.toNat else none

end Sys2Proof.Machine
end

