-- ==== Sys2Proof/Machine/Bus.lean ====
section
/-! DEFINITION. The bus commands of 40_bus.md. -/

namespace Sys2Proof.Machine

/-- ADDR_SEND (40_bus.md R120). -/
def execAddrSend (a : Nat) (s : State) : Outcome := issue s (ret .unit (driveAddress s a))

/-- DATA_SEND (40_bus.md R121): no listener outside FETCH, so nothing is captured. -/
def execDataSend (d : Nat) (s : State) : Outcome := issue s (ret .unit (driveData s d).1)

/-- A CTRL_SEND after its drive: data of a read response goes to no consumer (40_bus.md R122). -/
def endCtrlSend : Response → Outcome
  | .completed t _ => ret .unit t
  | .raised t f => raise f t
  | .undefinedRead a => .fault (.outsideBuffer a)

/-- CTRL_SEND (40_bus.md R122): the name, then the payload, then the drive. -/
def execCtrlSend (name : Name) (v : Byte) (s : State) : Outcome :=
  issue s <|
    match signalOfName s.cfg.arch name with
    | none => raise (.invalidSignalError name) s
    | some line =>
      match bitOfByte v with
      | none => raise (.illegalOperand v.toNat) s
      | some level => endCtrlSend (driveControl s line level)

end Sys2Proof.Machine
end

