-- ==== Sys2Proof/Machine/Cpu.lean ====
section
/-! DEFINITION. The Microprocessor's commands (44_cpu.md). -/

namespace Sys2Proof.Machine

/-- The end of a FETCH whose word arrived: enqueue, advance IP by one byte, go idle (44_cpu.md R201). -/
def finishFetch (s : State) (w : Nat) : Outcome :=
  let t := (enqueue s w).setBiu .dequeueReady
  if s.cfg.mode.maxOffset < s.ip + 1 then raise (.offsetRangeError (s.ip + 1 : Nat)) t
  else ret (.status s.hasRoom) ((t.setIp (s.ip + 1)).setBiu .idle)

/-- A FETCH up to its READ drive: the address is on its bus and the data listener is armed (44_cpu.md R201). -/
def beginFetch (s : State) : State :=
  ((driveAddress s (physicalAddress s)).setBiu .addressSent).setBiu .readSignaled

/-- A FETCH after its READ drive: the word the listener captured goes to the queue; without one nothing more
happens (44_cpu.md R201; unreachable, 70_reset_and_hazards.md R275). -/
def endFetch : Response → Outcome
  | .raised t f => raise f t
  | .undefinedRead a => .fault (.outsideBuffer a)
  | .completed t none => ret (.status false) ((t.setBiu .awaitingData).setBiu .idle)
  | .completed t (some w) => finishFetch (t.setBiu .awaitingData) w

/-- FETCH (44_cpu.md R201). -/
def execFetch (s : State) : Outcome :=
  issue s <|
    if s.cfg.mode ≠ .realMode then raise (.modeNotSupported s.cfg.mode) s
    else endFetch (driveNamed (beginFetch s) readName true)

/-- DECODE (44_cpu.md R202): dequeue, and hand the word to the collaborator. -/
def execDecode (s : State) : Outcome :=
  issue s <|
    match s.queue with
    | [] => ret (.decoded none) s
    | w :: q => ret (.decoded (some (w, Config.dec w s.cfg.wordBits))) (s.setQueue q)

end Sys2Proof.Machine
end

