-- ==== Sys2Proof/Machine/Gates.lean ====
section
/-! DEFINITION. The gate, truth-table and decoder commands of 42_decoder.md. They change no state but the
host's result. -/

namespace Sys2Proof.Machine

/-- The operand checks AND and OR share: `A`, then `B` (42_decoder.md R161 and R162). -/
def twoInputGate (gate : Bit → Bit → Bit) (a b : Byte) (s : State) : Outcome :=
  match bitOfByte a with
  | none => raise (.illegalOperand a.toNat) s
  | some x =>
    match bitOfByte b with
    | none => raise (.illegalOperand b.toNat) s
    | some y => ret (.bit (gate x y)) s

/-- NOT (42_decoder.md R160). -/
def execNotGate (a : Byte) (s : State) : Outcome :=
  issue s <|
    match bitOfByte a with
    | none => raise (.illegalOperand a.toNat) s
    | some x => ret (.bit (gateNot x)) s

/-- AND (42_decoder.md R161). -/
def execAndGate (a b : Byte) (s : State) : Outcome := issue s (twoInputGate gateAnd a b s)

/-- OR (42_decoder.md R162). -/
def execOrGate (a b : Byte) (s : State) : Outcome := issue s (twoInputGate gateOr a b s)

/-- CASCADE_AND (42_decoder.md R163): the count is checked before the elements. -/
def execCascadeAnd (bits : List Byte) (s : State) : Outcome :=
  issue s <|
    if bits.length < 2 then raise (.arityError bits.length) s
    else match firstBadBit bits with
      | some e => raise (.illegalOperand e.toNat) s
      | none => ret (.bit (cascade (bitsOfBytes bits))) s

/-- TRUTH_TABLE (42_decoder.md R164). -/
def execTruthTable (n : Nat) (s : State) : Outcome := issue s (ret (.rows (truthTableRows n)) s)

/-- DEC_LOOKUP (42_decoder.md R172). -/
def execDecLookup (a : Int) (s : State) : Outcome :=
  issue s <|
    match chipIndex s.cfg a with
    | none => raise (.indexError a) s
    | some i => ret (.chip (chipSelection s.cfg i)) s

/-- DEC_ONEHOT (42_decoder.md R173). -/
def execDecOnehot (x : Int) (s : State) : Outcome :=
  issue s <|
    match chipIndex s.cfg x with
    | none => raise (.indexError x) s
    | some i => ret (.bits (oneHotOutput s.cfg i)) s

end Sys2Proof.Machine
end

