-- ==== Sys2Proof/Machine/MemoryPorts.lean ====
section
/-! DEFINITION. The raw buffer's ports and the Memory device's write port (43_memory_ops.md). -/

namespace Sys2Proof.Machine

/-- MEM_WRITE (43_memory_ops.md R182): the start address is checked first. -/
def execMemWrite (a v : Int) (s : State) : Outcome :=
  issue s <|
    if a < 0 ∨ (s.cfg.totalBytes : Int) ≤ a then raise (.addressOutOfRangeError a) s
    else storeWord s a v

/-- RAW_STORE (43_memory_ops.md R180). -/
def execRawStore (a v : Int) (s : State) : Outcome := issue s (storeWord s a v)

/-- RAW_LOAD (43_memory_ops.md R181). -/
def execRawLoad (a : Int) (s : State) : Outcome :=
  issue s <|
    if ¬ WordInBuffer s.cfg a then raise (.bufferBoundsFault a) s
    else ret (.nat (s.memRead a.toNat s.cfg.wordBytes)) s

end Sys2Proof.Machine
end

