-- ==== Sys2Proof/Machine/Registers.lean ====
section
/-! DEFINITION. The register commands of 41_registers.md. -/

namespace Sys2Proof.Machine

/-- SET_OFFSET (41_registers.md R140). -/
def execSetOffset (r : Nat) (v : Int) (s : State) : Outcome :=
  issue s <|
    match s.pointer r with
    | none => raise (.illegalOperand r) s
    | some _ =>
      if v < 0 ∨ (s.cfg.mode.maxOffset : Int) < v then raise (.offsetRangeError v) s
      else ret .unit (s.setPointer r v.toNat)

/-- GET_OFFSET (41_registers.md R141). -/
def execGetOffset (r : Nat) (s : State) : Outcome :=
  issue s <|
    match s.pointer r with
    | none => raise (.illegalOperand r) s
    | some v => ret (.nat v) s

/-- IP_INC (41_registers.md R142): no wrap. -/
def execIpInc (r k : Nat) (s : State) : Outcome :=
  issue s <|
    if regOfNumber s.cfg r ≠ some .ip then raise (.illegalOperand r) s
    else if s.cfg.mode.maxOffset < s.ip + k then raise (.offsetRangeError (s.ip + k : Nat)) s
    else ret .unit (s.setIp (s.ip + k))

/-- IP_RESET (41_registers.md R143). -/
def execIpReset (r : Nat) (s : State) : Outcome :=
  issue s <|
    if regOfNumber s.cfg r ≠ some .ip then raise (.illegalOperand r) s
    else ret .unit (s.setIp 0)

/-- SET_BASE (41_registers.md R144): 16 bits in every mode (R147). -/
def execSetBase (r : Nat) (v : Int) (s : State) : Outcome :=
  issue s <|
    match s.segment r with
    | none => raise (.illegalOperand r) s
    | some _ =>
      if v < 0 ∨ (maxBase : Int) < v then raise (.baseRangeError v) s
      else ret .unit (s.setSegment r v.toNat)

/-- GET_BASE (41_registers.md R145). -/
def execGetBase (r : Nat) (s : State) : Outcome :=
  issue s <|
    match s.segment r with
    | none => raise (.illegalOperand r) s
    | some v => ret (.nat v) s

end Sys2Proof.Machine
end

