-- ==== Sys2Proof/Syntax.lean ====
section
/-! DEFINITION. The 21 commands of 30_encoding.md R99, one constructor per row of the opcode table. A `Bit`
operand is the byte as it stands in the command: a byte that is no bit is a legal encoding whose execution
raises `IllegalOperand` (30_encoding.md R97). -/

namespace Sys2Proof

/-- A command with its operands, whole values (30_encoding.md R95 and R100). -/
inductive Instr where
  /-- 0x01: drive the address bus. -/
  | addrSend (a : Nat)
  /-- 0x02: drive the data bus. -/
  | dataSend (d : Nat)
  /-- 0x03: send a control signal. -/
  | ctrlSend (name : Name) (v : Byte)
  /-- 0x10: write a pointer register's offset. -/
  | setOffset (r : Nat) (v : Int)
  /-- 0x11: read a pointer register's offset. -/
  | getOffset (r : Nat)
  /-- 0x12: advance the instruction pointer. -/
  | ipInc (r : Nat) (k : Nat)
  /-- 0x13: clear the instruction pointer. -/
  | ipReset (r : Nat)
  /-- 0x14: write a segment register's base. -/
  | setBase (r : Nat) (v : Int)
  /-- 0x15: read a segment register's base. -/
  | getBase (r : Nat)
  /-- 0x20: one-bit complement. -/
  | notGate (a : Byte)
  /-- 0x21: two-input conjunction. -/
  | andGate (a b : Byte)
  /-- 0x22: two-input disjunction. -/
  | orGate (a b : Byte)
  /-- 0x23: left fold of AND over a bit sequence. -/
  | cascadeAnd (bits : List Byte)
  /-- 0x24: every pattern of `n` bits. -/
  | truthTable (n : Nat)
  /-- 0x25: chip-select lookup. -/
  | decLookup (a : Int)
  /-- 0x26: the decoder's one-hot output for one input. -/
  | decOnehot (x : Int)
  /-- 0x30: the Memory device's write port. -/
  | memWrite (a v : Int)
  /-- 0x31: store a word in the raw buffer. -/
  | rawStore (a v : Int)
  /-- 0x32: read a word of the raw buffer. -/
  | rawLoad (a : Int)
  /-- 0x40: one read cycle into the prefetch queue. -/
  | fetch
  /-- 0x41: dequeue one word for the decode collaborator. -/
  | decode
deriving DecidableEq, Repr

end Sys2Proof
end

