-- ==== Sys2Proof/Machine/Dispatch.lean ====
section
/-! DEFINITION. One arm per command, each a direct call of its meaning. -/

namespace Sys2Proof.Machine

def exec (i : Instr) (s : State) : Host.Outcome State Fault Refusal :=
  match i with
  | .addrSend a => Sys2Proof.Machine.execAddrSend a s
  | .dataSend d => Sys2Proof.Machine.execDataSend d s
  | .ctrlSend name v => Sys2Proof.Machine.execCtrlSend name v s
  | .setOffset r v => Sys2Proof.Machine.execSetOffset r v s
  | .getOffset r => Sys2Proof.Machine.execGetOffset r s
  | .ipInc r k => Sys2Proof.Machine.execIpInc r k s
  | .ipReset r => Sys2Proof.Machine.execIpReset r s
  | .setBase r v => Sys2Proof.Machine.execSetBase r v s
  | .getBase r => Sys2Proof.Machine.execGetBase r s
  | .notGate a => Sys2Proof.Machine.execNotGate a s
  | .andGate a b => Sys2Proof.Machine.execAndGate a b s
  | .orGate a b => Sys2Proof.Machine.execOrGate a b s
  | .cascadeAnd bits => Sys2Proof.Machine.execCascadeAnd bits s
  | .truthTable n => Sys2Proof.Machine.execTruthTable n s
  | .decLookup a => Sys2Proof.Machine.execDecLookup a s
  | .decOnehot x => Sys2Proof.Machine.execDecOnehot x s
  | .memWrite a v => Sys2Proof.Machine.execMemWrite a v s
  | .rawStore a v => Sys2Proof.Machine.execRawStore a v s
  | .rawLoad a => Sys2Proof.Machine.execRawLoad a s
  | .fetch => Sys2Proof.Machine.execFetch s
  | .decode => Sys2Proof.Machine.execDecode s

end Sys2Proof.Machine
end

