-- ==== Sys2Proof/WellFormed.lean ====
section
/-! DEFINITION. Which commands have an encoding: every operand kind is unbounded but a `Name`, whose
length stands in one byte (30_encoding.md R92). -/

namespace Sys2Proof

/-- A name has at most 255 bytes (30_encoding.md R92). -/
def Name.fits (name : Name) : Bool := decide (name.length ≤ 255)

/-- The command can be written as bytes (30_encoding.md R92 and R95). -/
def Instr.wellFormed : Instr → Bool
  | .ctrlSend name _ => Name.fits name
  | .addrSend _ | .dataSend _ | .setOffset _ _ | .getOffset _ | .ipInc _ _ | .ipReset _
  | .setBase _ _ | .getBase _ | .notGate _ | .andGate _ _ | .orGate _ _ | .cascadeAnd _
  | .truthTable _ | .decLookup _ | .decOnehot _ | .memWrite _ _ | .rawStore _ _ | .rawLoad _
  | .fetch | .decode => true

end Sys2Proof
end

