-- ==== Sys2Proof/Decode.lean ====
section
/-! DEFINITION. The command decoder of 30_encoding.md, total on any bytes, and the encoder written from
the same tables. -/

namespace Sys2Proof

/-- Why a byte sequence is no command; every reason raises `IllegalCommand` (30_encoding.md R97). -/
inductive DecodeError where
  /-- The header byte is not a row of R99 (R98), or there is none. -/
  | unknownHeader
  /-- The bytes end before the last operand is complete. -/
  | truncated
  /-- A varint is not minimal. -/
  | notMinimal
deriving DecidableEq, Repr

/-- An operand read from the front of the bytes, with the bytes after it. -/
abbrev Parsed (α : Type) := Except DecodeError (α × List Byte)

/-! ### Varints (30_encoding.md R93 and R94) -/

/-- The 7-bit groups of a varint: it ends at its first byte with bit 7 clear (R96). -/
def takeGroups : List Byte → Parsed (List Nat)
  | [] => .error .truncated
  | b :: bs =>
    if b.toNat < 128 then .ok ([b.toNat], bs)
    else match takeGroups bs with
      | .ok (gs, rest) => .ok ((b.toNat - 128) :: gs, rest)
      | .error e => .error e

/-- The sum of `g_i * 2^(7i)` (R93). -/
def groupsValue : List Nat → Nat
  | [] => 0
  | g :: gs => g + 128 * groupsValue gs

/-- A legal unsigned encoding's last group is not 0 unless it is the only one (R93). -/
def minimalNat (gs : List Nat) : Bool := gs.length == 1 || gs.getLastD 0 != 0

/-- `v` fits `k` signed groups: `-2^(7k-1) ≤ v < 2^(7k-1)` (R94). -/
def fitsSigned (k : Nat) (v : Int) : Bool :=
  decide (-(2 ^ (7 * k - 1) : Int) ≤ v ∧ v < (2 ^ (7 * k - 1) : Int))

/-- The integer that `k` groups of value `u` stand for (R94). -/
def signedValue (k u : Nat) : Int :=
  if 2 ^ (7 * k - 1) ≤ u then (u : Int) - (2 ^ (7 * k) : Int) else (u : Int)

/-- A `Nat` operand: a minimal unsigned varint (R93). -/
def takeNat (bs : List Byte) : Parsed Nat :=
  match takeGroups bs with
  | .ok (gs, rest) => if minimalNat gs then .ok (groupsValue gs, rest) else .error .notMinimal
  | .error e => .error e

/-- An `Int` operand: a signed varint of the least number of groups (R94). -/
def takeInt (bs : List Byte) : Parsed Int :=
  match takeGroups bs with
  | .ok (gs, rest) =>
    let v := signedValue gs.length (groupsValue gs)
    if gs.length == 1 || !fitsSigned (gs.length - 1) v then .ok (v, rest) else .error .notMinimal
  | .error e => .error e

/-! ### The other operand kinds (30_encoding.md R92) -/

/-- One byte as it stands: a `Bit` operand or a length. -/
def takeByte : List Byte → Parsed Byte
  | [] => .error .truncated
  | b :: bs => .ok (b, bs)

/-- The next `k` bytes. -/
def takeBytes (k : Nat) (bs : List Byte) : Parsed (List Byte) :=
  if k ≤ bs.length then .ok (bs.take k, bs.drop k) else .error .truncated

/-- A `Bits` operand: a count `k`, then `k` bytes. DEDUCED (log entry 13, unsafe): R96 says `1 + k` bytes after
the count, R92's table says `k`, and R100 has every operand decoded as R92 says, as R105's `23 03 01 01 00` is. -/
def takeBits (bs : List Byte) : Parsed (List Byte) :=
  match takeNat bs with
  | .ok (k, rest) => takeBytes k rest
  | .error e => .error e

/-- A `Name` operand: a length byte, then that many bytes. -/
def takeName (bs : List Byte) : Parsed Name :=
  match takeByte bs with
  | .ok (l, rest) => takeBytes l.toNat rest
  | .error e => .error e

/-! ### Formats (30_encoding.md R95) -/

/-- A command of one operand. -/
def parse1 {α : Type} (mk : α → Instr) (p : List Byte → Parsed α) (bs : List Byte) : Parsed Instr :=
  match p bs with
  | .ok (a, rest) => .ok (mk a, rest)
  | .error e => .error e

/-- A command of two operands, in order. -/
def parse2 {α β : Type} (mk : α → β → Instr) (p : List Byte → Parsed α) (q : List Byte → Parsed β)
    (bs : List Byte) : Parsed Instr :=
  match p bs with
  | .ok (a, rest) => parse1 (mk a) q rest
  | .error e => .error e

/-- The operands that follow header byte `op`, by the opcode map (30_encoding.md R99). -/
def decodeOperands (op : Nat) (bs : List Byte) : Parsed Instr :=
  match op with
  | 0x01 => parse1 .addrSend takeNat bs
  | 0x02 => parse1 .dataSend takeNat bs
  | 0x03 => parse2 .ctrlSend takeName takeByte bs
  | 0x10 => parse2 .setOffset takeNat takeInt bs
  | 0x11 => parse1 .getOffset takeNat bs
  | 0x12 => parse2 .ipInc takeNat takeNat bs
  | 0x13 => parse1 .ipReset takeNat bs
  | 0x14 => parse2 .setBase takeNat takeInt bs
  | 0x15 => parse1 .getBase takeNat bs
  | 0x20 => parse1 .notGate takeByte bs
  | 0x21 => parse2 .andGate takeByte takeByte bs
  | 0x22 => parse2 .orGate takeByte takeByte bs
  | 0x23 => parse1 .cascadeAnd takeBits bs
  | 0x24 => parse1 .truthTable takeNat bs
  | 0x25 => parse1 .decLookup takeInt bs
  | 0x26 => parse1 .decOnehot takeInt bs
  | 0x30 => parse2 .memWrite takeInt takeInt bs
  | 0x31 => parse2 .rawStore takeInt takeInt bs
  | 0x32 => parse1 .rawLoad takeInt bs
  | 0x40 => .ok (.fetch, bs)
  | 0x41 => .ok (.decode, bs)
  | _ => .error .unknownHeader

/-- The command at the front of a byte stream and the bytes after it (30_encoding.md R90 and R96). -/
def decode : List Byte → Parsed Instr
  | [] => .error .unknownHeader
  | op :: bs => decodeOperands op.toNat bs

/-! ### The encoder -/

/-- The bytes of a varint's groups: bit 7 is set on every byte but the last (R93). -/
def groupBytes : List Nat → List Byte
  | [] => []
  | [g] => [BitVec.ofNat 8 g]
  | g :: h :: gs => BitVec.ofNat 8 (g + 128) :: groupBytes (h :: gs)

/-- The `k` low 7-bit groups of `v`, least significant first (R93). -/
def lowGroups : Nat → Nat → List Nat
  | 0, _ => []
  | k + 1, v => v % 128 :: lowGroups k (v / 128)

/-- How many bits `m` has: 0 for 0. -/
def bitLength (m : Nat) : Nat := if m = 0 then 0 else Nat.log2 m + 1

/-- The number of groups of a minimal unsigned varint (R93). -/
def natGroupCount (v : Nat) : Nat := Nat.log2 v / 7 + 1

/-- The least `k` with `-2^(7k-1) ≤ v < 2^(7k-1)` (R94). -/
def intGroupCount (v : Int) : Nat :=
  bitLength (if 0 ≤ v then v.toNat else (-v - 1).toNat) / 7 + 1

/-- A `Nat` operand's bytes (R93). -/
def encodeNat (v : Nat) : List Byte := groupBytes (lowGroups (natGroupCount v) v)

/-- An `Int` operand's bytes: the groups of `v mod 2^(7k)` (R94). -/
def encodeInt (v : Int) : List Byte :=
  let k := intGroupCount v
  groupBytes (lowGroups k (v % (2 ^ (7 * k) : Int)).toNat)

/-- A `Bits` operand's bytes, `k` of them after the count (R92, R100 and R105 against R96: DEDUCED, log entry 13,
unsafe). -/
def encodeBits (bits : List Byte) : List Byte := encodeNat bits.length ++ bits

/-- A `Name` operand's bytes (R92); a name of more than 255 bytes has none, which `Instr.wellFormed` says. -/
def encodeName (name : Name) : List Byte := BitVec.ofNat 8 name.length :: name

/-- The header byte of a command (30_encoding.md R99). -/
def Instr.opcode : Instr → Byte
  | .addrSend _ => 0x01
  | .dataSend _ => 0x02
  | .ctrlSend _ _ => 0x03
  | .setOffset _ _ => 0x10
  | .getOffset _ => 0x11
  | .ipInc _ _ => 0x12
  | .ipReset _ => 0x13
  | .setBase _ _ => 0x14
  | .getBase _ => 0x15
  | .notGate _ => 0x20
  | .andGate _ _ => 0x21
  | .orGate _ _ => 0x22
  | .cascadeAnd _ => 0x23
  | .truthTable _ => 0x24
  | .decLookup _ => 0x25
  | .decOnehot _ => 0x26
  | .memWrite _ _ => 0x30
  | .rawStore _ _ => 0x31
  | .rawLoad _ => 0x32
  | .fetch => 0x40
  | .decode => 0x41

/-- The operand bytes of a command, in the order of its format (30_encoding.md R95). -/
def Instr.operandBytes : Instr → List Byte
  | .addrSend a => encodeNat a
  | .dataSend d => encodeNat d
  | .ctrlSend name v => encodeName name ++ [v]
  | .setOffset r v => encodeNat r ++ encodeInt v
  | .getOffset r => encodeNat r
  | .ipInc r k => encodeNat r ++ encodeNat k
  | .ipReset r => encodeNat r
  | .setBase r v => encodeNat r ++ encodeInt v
  | .getBase r => encodeNat r
  | .notGate a => [a]
  | .andGate a b => [a, b]
  | .orGate a b => [a, b]
  | .cascadeAnd bits => encodeBits bits
  | .truthTable n => encodeNat n
  | .decLookup a => encodeInt a
  | .decOnehot x => encodeInt x
  | .memWrite a v => encodeInt a ++ encodeInt v
  | .rawStore a v => encodeInt a ++ encodeInt v
  | .rawLoad a => encodeInt a
  | .fetch => []
  | .decode => []

/-- The bytes of a well-formed command: its header, then its operands (30_encoding.md R90). -/
def encode (i : Instr) : List Byte := i.opcode :: i.operandBytes

/-- The header bytes of the opcode map (30_encoding.md R99). -/
def opcodes : List Byte :=
  [0x01, 0x02, 0x03, 0x10, 0x11, 0x12, 0x13, 0x14, 0x15, 0x20, 0x21, 0x22, 0x23, 0x24, 0x25, 0x26,
   0x30, 0x31, 0x32, 0x40, 0x41]

/-! ### One table word as bytes -/

/-- The `nbits / 8` bytes of `w`, bit 0 the least significant bit of the first byte, and then zero
operand bytes: more than the longest command of zero operands has. -/
def tableBytes (nbits w : Nat) : List Byte :=
  (List.range (nbits / 8)).map (fun i => BitVec.ofNat 8 (w / 256 ^ i)) ++ List.replicate 8 0

/-- The command the decoder reads from a table word and zeros after it. -/
def decodeTableWord (nbits w : Nat) : Option Instr :=
  match decode (tableBytes nbits w) with
  | .ok (i, _) => some i
  | .error _ => none

end Sys2Proof
end

