-- ==== Sys2Proof/Machine/Stream.lean ====
section
/-! DEFINITION. Taking the next command off the host's byte stream (30_encoding.md R90 and R96). -/

namespace Sys2Proof.Machine

/-- What the front of the stream holds. -/
inductive NextCommand where
  /-- No bytes: the host has issued nothing. -/
  | nothing
  /-- A command, and the bytes after it. -/
  | command (i : Instr) (rest : List Byte)
  /-- Bytes that are no command, with their header byte (30_encoding.md R97). -/
  | illegal (op : Byte)
deriving DecidableEq, Repr

/-- Decode the front of a command stream. -/
def nextCommand (bs : List Byte) : NextCommand :=
  match bs with
  | [] => .nothing
  | op :: _ =>
    match decode bs with
    | .ok (i, rest) => .command i rest
    | .error _ => .illegal op

/-- Bytes that are no command: `IllegalCommand(op)` and no other effect (30_encoding.md R97, 60_exceptions.md
R224). The length of such bytes is not defined, so the rest of the stream is dropped (log entry 7). -/
def rejectCommand (op : Byte) (s : State) : Outcome :=
  let t := s.setStream []
  issue t (raise (.illegalCommand op) t)

end Sys2Proof.Machine
end

