-- ==== Sys2Proof/Machine/Step.lean ====
section
/-! DEFINITION. One step: the block takes the next command of the host's stream and runs it to completion or
to a fault (00_scope.md R6). Commands are delivered by the host and never fetched from MEM (30_encoding.md R90). -/

namespace Sys2Proof.Machine

/-- One step. With no command issued nothing happens (60_exceptions.md R234, log entry 5). -/
def step (s : State) : Host.Outcome State Fault Refusal :=
  match nextCommand s.stream with
  | .nothing => .next s
  | .command i rest => exec i (s.setStream rest)
  | .illegal op => rejectCommand op s

/-- The machine with one command delivered by the host: a table word, then zero operand bytes. -/
def State.withFetchWord (s : State) (nbits w : Nat) : State := s.setStream (tableBytes nbits w)

end Sys2Proof.Machine
end

