-- ==== Sys2Proof/Machine/Assembly.lean ====
section
/-! DEFINITION. The assembler forms that are another way to write commands (30_encoding.md R102 to R104), each
with the commands it stands for, and the fault codes of 60_exceptions.md R220. None adds behaviour. -/

namespace Sys2Proof.Machine

/-- A line of assembly. -/
inductive AsmLine where
  /-- A command written out. -/
  | plain (i : Instr)
  /-- `ADDR_SEND "key", a`: the key is ignored (R102, 40_bus.md R126). -/
  | addrSendKeyed (key : Name) (a : Nat)
  /-- `DATA_SEND "key", d`: the key is ignored. -/
  | dataSendKeyed (key : Name) (d : Nat)
  /-- `IP_INC r`: one byte (R102). -/
  | ipIncDefault (r : Nat)
  /-- `GET_NEXT_INSTRUCTION` (44_cpu.md R202). -/
  | getNextInstruction
  /-- `PRELOAD a, [v0, v1, ...]` (R104). -/
  | preload (a : Int) (vs : List Int)
deriving DecidableEq, Repr

/-- PRELOAD as consecutive MEM_WRITEs (R104). -/
def expandPreload (wordBytes : Nat) : Int → List Int → List Instr
  | _, [] => []
  | a, v :: vs => .memWrite a v :: expandPreload wordBytes (a + wordBytes) vs

/-- The commands a line stands for, in order. -/
def AsmLine.expand (c : Config) : AsmLine → List Instr
  | .plain i => [i]
  | .addrSendKeyed _ a => [.addrSend a]
  | .dataSendKeyed _ d => [.dataSend d]
  | .ipIncDefault r => [.ipInc r 1]
  | .getNextInstruction => [.decode]
  | .preload a vs => expandPreload c.wordBytes a vs

/-- The number a register is written by (10_state.md R30). -/
def RegName.number (c : Config) : RegName → Nat
  | .ip => 0
  | .seg => 1
  | .pointer i => 2 + i
  | .segment j => 2 + c.nptr + j

/-- The code of a fault kind (60_exceptions.md R220). -/
def CoreFault.code : CoreFault → Nat
  | .invalidSignalError _ => 1
  | .addressOutOfRangeError _ => 2
  | .indexError _ => 3
  | .noChipSelectedError _ => 4
  | .specMismatchError _ _ _ => 5
  | .offsetRangeError _ => 6
  | .arityError _ => 7
  | .modeNotSupported _ => 8
  | .baseRangeError _ => 9
  | .bufferBoundsFault _ => 10
  | .valueWidthFault _ => 11
  | .illegalCommand _ => 12
  | .illegalOperand _ => 13

end Sys2Proof.Machine
end

