-- ==== Sys2Proof/Machine/Construct.lean ====
section
/-! DEFINITION. Construction, the only reset the block has (70_reset_and_hazards.md R250 to R259): it is the
host's act on a configuration and no step of a machine. -/

namespace Sys2Proof.Machine

/-- The faults of construction after the configuration is accepted, in order: the topology check (R251), the
decoder's arity (42_decoder.md R171), Memory's READ registration (R255). -/
def constructionFault (c : Config) : Option CoreFault :=
  if !c.topologyOk then some (.specMismatchError c.bytesPerChip c.locPerChip c.addressLines)
  else if c.chipSelectBits < 2 then some (.arityError c.chipSelectBits)
  else if (signalOfName c.arch readName).isNone then some (.invalidSignalError readName)
  else none

/-- Construct the machine of a configuration (R252): refuse it (R250), fault (R222), or give the state of
R259. -/
def construct (c : Config) : Outcome :=
  match c.arch with
  | .other name => .refused (.unsupportedArch name)
  | .x86 =>
    if !c.wordSizeOk then .refused (.unsupportedWordBytes c.wordBytes)
    else match constructionFault c with
      | some f => .fault (.construction f)
      | none => .next (State.initial c)

end Sys2Proof.Machine
end

