-- ==== Sys2Proof/Safety.lean ====
section
/-! DEFINITION. What a state of a constructed machine looks like: the configurations construction accepts and
the invariants 10_state.md gives each piece of state. Claims take them as premises. -/

namespace Sys2Proof.Machine

/-- What construction guarantees of a configuration (70_reset_and_hazards.md R250 and R251): the X86 table,
a supported word size, chips that fill the buffer, N and LOC_PER_CHIP powers of two whose exponents sum to
the address lines, and at least two decoder inputs. -/
structure ConfigValid (c : Config) : Prop where
  arch : c.arch = .x86
  wordBytes : c.wordBytes = 1 ∨ c.wordBytes = 2 ∨ c.wordBytes = 4
  chips : c.numberOfChips * c.bytesPerChip = c.totalBytes
  numberOfChips : c.numberOfChips = 2 ^ c.chipSelectBits
  locations : c.locPerChip = 2 ^ c.addressingDepth
  lines : c.chipSelectBits + c.addressingDepth = c.addressLines
  arity : 2 ≤ c.chipSelectBits

/-- The invariant of a constructed machine. -/
structure State.Inv (s : State) : Prop where
  /-- The configuration passed construction (R251). -/
  config : ConfigValid s.cfg
  /-- IP is in [0, MAX(MODE)] (10_state.md R31). -/
  ip : s.ip ≤ s.cfg.mode.maxOffset
  /-- SEG is 16 bits wide (R33). -/
  seg : s.seg ≤ maxBase
  /-- There are NPTR pointer registers (R30), each in [0, MAX(MODE)] (R32). -/
  pointerCount : s.p.length = s.cfg.nptr
  pointers : ∀ v ∈ s.p, v ≤ s.cfg.mode.maxOffset
  /-- There are NSEG further segment registers (R30), each 16 bits wide (R33). -/
  segmentCount : s.segs.length = s.cfg.nseg
  segments : ∀ v ∈ s.segs, v ≤ maxBase
  /-- The queue holds at most 6 words of WORD_BITS bits (R41). -/
  queueLength : s.queue.length ≤ Config.queueCapacity
  queueWords : ∀ w ∈ s.queue, w < 2 ^ s.cfg.wordBits
  /-- Memory is in its canonical form (log entry 3), and only bytes of the buffer are written (20_memory.md R60). -/
  memory : Memory.wf s.mem = true
  memoryBounds : ∀ cell ∈ s.mem, cell.1 < s.cfg.totalBytes
  /-- A machine with no fault is idle between commands (R42). -/
  biu : s.fault = none → s.biu = .idle
  /-- A faulted machine's answer is its recorded fault (60_exceptions.md R230 and R231). -/
  answer : ∀ f, s.fault = some f → s.result = some (.fault f)

/-- The fault kinds a command may raise: the "raised by" column of 60_exceptions.md R220, less the two faults that
R221 and R255 call unreachable. An info that comes from the operands is one of them; an info that comes from the
state (the address of a read response, the sum of an increment, the mode) is left open. -/
def mayRaise : Instr → CoreFault → Prop
  | .ctrlSend name v, f =>
    f = .invalidSignalError name ∨ f = .illegalOperand v.toNat ∨ ∃ a : Nat, f = .indexError a
  | .setOffset r v, f => f = .illegalOperand r ∨ f = .offsetRangeError v
  | .getOffset r, f => f = .illegalOperand r
  | .ipInc r _, f => f = .illegalOperand r ∨ ∃ v, f = .offsetRangeError v
  | .ipReset r, f => f = .illegalOperand r
  | .setBase r v, f => f = .illegalOperand r ∨ f = .baseRangeError v
  | .getBase r, f => f = .illegalOperand r
  | .notGate a, f => f = .illegalOperand a.toNat
  | .andGate a b, f => f = .illegalOperand a.toNat ∨ f = .illegalOperand b.toNat
  | .orGate a b, f => f = .illegalOperand a.toNat ∨ f = .illegalOperand b.toNat
  | .cascadeAnd bits, f => f = .arityError bits.length ∨ ∃ e ∈ bits, f = .illegalOperand e.toNat
  | .decLookup a, f => f = .indexError a
  | .decOnehot x, f => f = .indexError x
  | .memWrite a v, f => f = .addressOutOfRangeError a ∨ f = .bufferBoundsFault a ∨ f = .valueWidthFault v
  | .rawStore a v, f => f = .bufferBoundsFault a ∨ f = .valueWidthFault v
  | .rawLoad a, f => f = .bufferBoundsFault a
  | .fetch, f =>
    (∃ m, f = .modeNotSupported m) ∨ (∃ a : Nat, f = .indexError a) ∨ ∃ v, f = .offsetRangeError v
  | .addrSend _, _ | .dataSend _, _ | .truthTable _, _ | .decode, _ => False

/-- The kind of value a command that does not fault returns (30_encoding.md R101). -/
def resultKind (c : Config) : Instr → Result → Prop
  | .addrSend _, r | .dataSend _, r | .ctrlSend _ _, r | .setOffset _ _, r | .ipInc _ _, r
  | .ipReset _, r | .setBase _ _, r | .memWrite _ _, r | .rawStore _ _, r => r = .unit
  | .getOffset _, r | .getBase _, r | .rawLoad _, r => ∃ v, r = .nat v
  | .notGate _, r | .andGate _ _, r | .orGate _ _, r | .cascadeAnd _, r => ∃ b, r = .bit b
  | .truthTable _, r => ∃ t, r = .rows t
  | .decLookup _, r => ∃ c, r = .chip c
  | .decOnehot _, r => ∃ bs, r = .bits bs ∧ bs.length = c.numberOfChips
  | .fetch, r => ∃ ok, r = .status ok
  | .decode, r => ∃ d, r = .decoded d

end Sys2Proof.Machine
end

