-- ==== Sys2Proof/Certificates/Slice0/Obligations.lean ====
section
/-! DEFINITION. What is claimed of the core, from the numbered rules of spec/. A statement about a command
gives its whole effect as a record update of the state before, so that every field the update does not name
is unchanged. -/

open Sys2Proof Sys2Proof.Machine

/-! ### Encoding (30_encoding.md) -/

/-- A well-formed command's bytes decode to it, whatever follows them (30_encoding.md R90 to R95). That a `Bits`
operand has `k` bytes after its count is the model's choice (log entry 13). -/
def Obligations.EncodedInstructionDecodesToItself : Prop :=
  ∀ (i : Instr) (rest : List Byte), i.wellFormed = true → decode (encode i ++ rest) = .ok (i, rest)

/-- Bytes that decode are the encoding of the command they decode to: no command has a second encoding,
since a legal varint is minimal (30_encoding.md R93 and R94). That a `Bits` operand has `k` bytes after its count
is the model's choice (log entry 13). -/
def Obligations.DecodedBytesAreTheEncoding : Prop :=
  ∀ (bs : List Byte) (i : Instr) (rest : List Byte), decode bs = .ok (i, rest) →
    i.wellFormed = true ∧ bs = encode i ++ rest

/-- A `Bits` operand of `k` elements is its count and exactly `k` bytes, element 0 first, whatever follows
(30_encoding.md R92). That it is `k` and not `1 + k` bytes is the model's choice (log entry 13). -/
def Obligations.BitsOperandHoldsOneBytePerElement : Prop :=
  ∀ bits rest : List Byte,
    encodeBits bits = encodeNat bits.length ++ bits ∧
    takeBits (encodeNat bits.length ++ (bits ++ rest)) = .ok (bits, rest)

/-- The worked encodings of 30_encoding.md R105. -/
def Obligations.WorkedEncodingsDecode : Prop :=
  decode [0x40] = .ok (.fetch, []) ∧
  decode [0x41] = .ok (.decode, []) ∧
  decode [0x30, 0x00, 0xCD, 0x00] = .ok (.memWrite 0 0x4D, []) ∧
  decode [0x03, 0x04, 0x48, 0x41, 0x4C, 0x54, 0x01] = .ok (.ctrlSend [0x48, 0x41, 0x4C, 0x54] 1, []) ∧
  decode [0x03, 0x04, 0x52, 0x45, 0x41, 0x44, 0x01] = .ok (.ctrlSend readName 1, []) ∧
  decode [0x10, 0x00, 0x80, 0x80, 0x04] = .ok (.setOffset 0 0x10000, []) ∧
  decode [0x10, 0x00, 0xFF, 0xFF, 0x03] = .ok (.setOffset 0 0xFFFF, []) ∧
  decode [0x12, 0x00, 0x01] = .ok (.ipInc 0 1, []) ∧
  decode [0x23, 0x03, 0x01, 0x01, 0x00] = .ok (.cascadeAnd [1, 1, 0], []) ∧
  decode [0x24, 0x02] = .ok (.truthTable 2, []) ∧
  decode [0x25, 0x08] = .ok (.decLookup 8, []) ∧
  decode [0x14, 0x01, 0x01] = .ok (.setBase 1 1, [])

/-- PRELOAD is consecutive MEM_WRITEs: the k-th writes the k-th value k words after the first address
(30_encoding.md R104). -/
def Obligations.PreloadExpandsToConsecutiveWrites : Prop :=
  ∀ (c : Config) (a : Int) (vs : List Int),
    ((AsmLine.preload a vs).expand c).length = vs.length ∧
    ∀ (k : Nat) (v : Int), vs[k]? = some v →
      ((AsmLine.preload a vs).expand c)[k]? = some (.memWrite (a + k * c.wordBytes) v)

/-! ### Steps, illegal commands and faults (30_encoding.md R97, 60_exceptions.md) -/

/-- When the front of the command stream decodes, the step is `exec` of that command, with its bytes taken
off the stream (30_encoding.md R90; the stream is the model's, log entry 5). -/
def Obligations.StepRunsTheDecodedCommand : Prop :=
  ∀ (s : State) (i : Instr) (rest : List Byte), decode s.stream = .ok (i, rest) →
    step s = exec i { s with stream := rest }

/-- With no command issued, the step changes nothing (60_exceptions.md R234; model's choice, log entry 5). -/
def Obligations.StepWithoutCommandChangesNothing : Prop :=
  ∀ s : State, s.stream = [] → step s = .next s

/-- A header byte that is no row of the opcode map raises `IllegalCommand` and nothing else: 0x00, the families
0x5 to 0xF, and every unlisted function (30_encoding.md R98). What is left of the stream is the model's choice
(log entry 7) and left open here. -/
def Obligations.UnassignedHeaderRaisesIllegalCommand : Prop :=
  ∀ (s : State) (op : Byte) (rest : List Byte), s.fault = none → s.stream = op :: rest →
    (op = 0 ∨ 0x50 ≤ op.toNat ∨ op ∉ opcodes) →
    ∃ t, step s = .next t ∧
      t = { s with stream := t.stream, fault := some (.illegalCommand op),
                   result := some (.fault (.illegalCommand op)) }

/-- Bytes that do not begin with the encoding of any command (an unlisted header, an incomplete operand, a
varint that is not minimal) raise `IllegalCommand` of their header byte, and the block's state is unchanged
except FAULT (60_exceptions.md R224, 30_encoding.md R97). How many bytes complete a `Bits` operand is the model's
choice (log entry 13). -/
def Obligations.BytesThatEncodeNoCommandAreIllegal : Prop :=
  ∀ (s : State) (op : Byte) (bs : List Byte), s.fault = none → s.stream = op :: bs →
    (∀ (i : Instr) (rest : List Byte), i.wellFormed = true → s.stream ≠ encode i ++ rest) →
    ∃ t, step s = .next t ∧
      t = { s with stream := t.stream, fault := some (.illegalCommand op),
                   result := some (.fault (.illegalCommand op)) }

/-- Once FAULT is set no command takes a step: each is answered with the recorded fault and changes nothing
else, and neither does a step on any bytes (60_exceptions.md R231). -/
def Obligations.HaltedMachineAnswersItsFault : Prop :=
  ∀ (s : State) (f : CoreFault), s.fault = some f →
    (∀ i : Instr, exec i s = .next { s with result := some (.fault f) }) ∧
    ∃ t, step s = .next t ∧ t = { s with stream := t.stream, result := t.result } ∧
      (s.stream ≠ [] → t.result = some (.fault f))

/-- On a constructed machine a command raises only fault kinds that R220 and R233 list for it;
`NoChipSelectedError` is not among them (60_exceptions.md R221). An info that is one of the command's operands is
pinned to them; the infos of CTRL_SEND's `IndexError`, IP_INC's `OffsetRangeError` and FETCH's faults, which come
from the state, are left open here and given by `CtrlSendFollowsItsRule`, `IpIncFollowsItsRule` and
`FetchFollowsItsRule`. -/
def Obligations.CommandRaisesOnlyItsListedFaults : Prop :=
  ∀ (i : Instr) (s t : State) (f : CoreFault), ConfigValid s.cfg → s.fault = none →
    exec i s = .next t → t.fault = some f → mayRaise i f

/-- `NoChipSelectedError` is unreachable: no command of a machine that has not faulted raises it
(60_exceptions.md R221). -/
def Obligations.NoChipSelectedErrorIsUnreachable : Prop :=
  ∀ (i : Instr) (s t : State) (a : Nat), s.fault = none → exec i s = .next t →
    t.fault ≠ some (.noChipSelectedError a)

/-- Each command returns one value of its kind, and a command that faults returns its fault instead
(30_encoding.md R101). -/
def Obligations.CommandReturnsAValueOfItsKind : Prop :=
  ∀ (i : Instr) (s t : State), exec i s = .next t →
    (t.fault = none → ∃ r, t.result = some r ∧ resultKind s.cfg i r) ∧
    (∀ f, t.fault = some f → t.result = some (.fault f))

/-! ### Bus commands (40_bus.md) -/

/-- ADDR_SEND drives the address bus: ALATCH alone changes, whatever the address (40_bus.md R120). -/
def Obligations.AddrSendLatchesTheAddress : Prop :=
  ∀ (s : State) (a : Nat), s.fault = none →
    encode (.addrSend a) = 0x01 :: encodeNat a ∧
    (∀ key, (AsmLine.addrSendKeyed key a).expand s.cfg = [.addrSend a]) ∧
    exec (.addrSend a) s = .next { s with alatch := some a, result := some .unit }

/-- DATA_SEND drives the data bus: DLATCH alone changes, and QUEUE never (40_bus.md R121). -/
def Obligations.DataSendLatchesTheDataOnly : Prop :=
  ∀ (s : State) (d : Nat), s.fault = none →
    encode (.dataSend d) = 0x02 :: encodeNat d ∧
    (∀ key, (AsmLine.dataSendKeyed key d).expand s.cfg = [.dataSend d]) ∧
    exec (.dataSend d) s = .next { s with dlatch := some d, result := some .unit }

/-- CTRL_SEND (40_bus.md R122) with Memory's read response (43_memory_ops.md R184): the name is checked, then
the payload, then the line's latch is set; READ driven true answers for the address in ALATCH. -/
def Obligations.CtrlSendFollowsItsRule : Prop :=
  ∀ (s : State) (name : Name) (v : Byte), ConfigValid s.cfg → s.fault = none →
    encode (.ctrlSend name v) = 0x03 :: (encodeName name ++ [v]) ∧
    (name ∉ [readName, writeName, memoryIoName] →
      exec (.ctrlSend name v) s = .next { s with
        fault := some (.invalidSignalError name), result := some (.fault (.invalidSignalError name)) }) ∧
    (name ∈ [readName, writeName, memoryIoName] → v ≠ 0 → v ≠ 1 →
      exec (.ctrlSend name v) s = .next { s with
        fault := some (.illegalOperand v.toNat), result := some (.fault (.illegalOperand v.toNat)) }) ∧
    (name = writeName → (v = 0 ∨ v = 1) →
      exec (.ctrlSend name v) s = .next { s with
        ctrl := { s.ctrl with write := some (v == 1) }, result := some .unit }) ∧
    (name = memoryIoName → (v = 0 ∨ v = 1) →
      exec (.ctrlSend name v) s = .next { s with
        ctrl := { s.ctrl with memoryIo := some (v == 1) }, result := some .unit }) ∧
    (name = readName → v = 0 →
      exec (.ctrlSend name v) s = .next { s with
        ctrl := { s.ctrl with read := some false }, result := some .unit }) ∧
    (name = readName → v = 1 → s.alatch = none →
      exec (.ctrlSend name v) s = .next { s with
        ctrl := { s.ctrl with read := some true }, result := some .unit }) ∧
    (∀ a, name = readName → v = 1 → s.alatch = some a → s.cfg.numberOfChips ≤ a →
      exec (.ctrlSend name v) s = .next { s with
        ctrl := { s.ctrl with read := some true },
        fault := some (.indexError a), result := some (.fault (.indexError a)) }) ∧
    (∀ a, name = readName → v = 1 → s.alatch = some a → a < s.cfg.numberOfChips →
      exec (.ctrlSend name v) s = .next { s with
        ctrl := { s.ctrl with read := some true },
        dlatch := some (s.memRead (a &&& (2 ^ s.cfg.addressingDepth - 1)) s.cfg.wordBytes),
        result := some .unit })

/-- Memory's response to READ driven true: none without an address, `IndexError` past the chips, and else the
word at `A & MASK` on the data bus, which the BIU's listener captures in READ_SIGNALED (43_memory_ops.md R184). -/
def Obligations.ReadResponseFollowsItsRule : Prop :=
  ∀ s : State, ConfigValid s.cfg →
    (s.alatch = none → memoryReadResponse s = .completed s none) ∧
    (∀ a, s.alatch = some a → s.cfg.numberOfChips ≤ a → memoryReadResponse s = .raised s (.indexError a)) ∧
    (∀ a w, s.alatch = some a → a < s.cfg.numberOfChips →
      w = s.memRead (a &&& (2 ^ s.cfg.addressingDepth - 1)) s.cfg.wordBytes →
      memoryReadResponse s =
        .completed { s with dlatch := some w } (if s.biu = .readSignaled then some w else none))

/-! ### Register commands (10_state.md R30, 41_registers.md) -/

/-- The register numbers: 0 is IP, 1 is SEG, then the pointer registers, then the segment registers; any
other number is no register, each kind answers to its own commands alone, and each register fits its width
(10_state.md R30). -/
def Obligations.RegisterNumbersFollowTheFile : Prop :=
  ∀ s : State, s.Inv →
    s.pointer 0 = some s.ip ∧ s.segment 0 = none ∧
    s.segment 1 = some s.seg ∧ s.pointer 1 = none ∧
    (∀ i, i < s.cfg.nptr → s.pointer (2 + i) = s.p[i]? ∧ s.p[i]? ≠ none ∧ s.segment (2 + i) = none) ∧
    (∀ j, j < s.cfg.nseg →
      s.segment (2 + s.cfg.nptr + j) = s.segs[j]? ∧ s.segs[j]? ≠ none ∧
        s.pointer (2 + s.cfg.nptr + j) = none) ∧
    (∀ r, 2 + s.cfg.nptr + s.cfg.nseg ≤ r → s.pointer r = none ∧ s.segment r = none) ∧
    (∀ r v, s.pointer r = some v → v < 2 ^ s.cfg.mode.width) ∧
    (∀ r v, s.segment r = some v → v < 2 ^ 16)

/-- SET_OFFSET writes one pointer register, after the register check and the range check (41_registers.md
R140). -/
def Obligations.SetOffsetFollowsItsRule : Prop :=
  ∀ (s : State) (r : Nat) (v : Int), s.fault = none →
    encode (.setOffset r v) = 0x10 :: (encodeNat r ++ encodeInt v) ∧
    (s.pointer r = none →
      exec (.setOffset r v) s = .next { s with
        fault := some (.illegalOperand r), result := some (.fault (.illegalOperand r)) }) ∧
    (s.pointer r ≠ none → (v < 0 ∨ (s.cfg.mode.maxOffset : Int) < v) →
      exec (.setOffset r v) s = .next { s with
        fault := some (.offsetRangeError v), result := some (.fault (.offsetRangeError v)) }) ∧
    (s.pointer r ≠ none → 0 ≤ v → v ≤ (s.cfg.mode.maxOffset : Int) →
      ∃ t, exec (.setOffset r v) s = .next t ∧
        t.pointer r = some v.toNat ∧ (∀ q, q ≠ r → t.pointer q = s.pointer q) ∧
        t = { s with ip := t.ip, p := t.p, result := some .unit })

/-- GET_OFFSET returns a pointer register's offset, always in [0, MAX(MODE)] (41_registers.md R141). -/
def Obligations.GetOffsetFollowsItsRule : Prop :=
  ∀ (s : State) (r : Nat), s.fault = none →
    encode (.getOffset r) = 0x11 :: encodeNat r ∧
    (s.pointer r = none →
      exec (.getOffset r) s = .next { s with
        fault := some (.illegalOperand r), result := some (.fault (.illegalOperand r)) }) ∧
    (∀ v, s.pointer r = some v →
      exec (.getOffset r) s = .next { s with result := some (.nat v) }) ∧
    (∀ v, s.Inv → s.pointer r = some v → v ≤ s.cfg.mode.maxOffset)

/-- IP_INC advances IP and does not wrap (41_registers.md R142). -/
def Obligations.IpIncFollowsItsRule : Prop :=
  ∀ (s : State) (r k : Nat), s.fault = none →
    encode (.ipInc r k) = 0x12 :: (encodeNat r ++ encodeNat k) ∧
    (AsmLine.ipIncDefault r).expand s.cfg = [.ipInc r 1] ∧
    (r ≠ 0 →
      exec (.ipInc r k) s = .next { s with
        fault := some (.illegalOperand r), result := some (.fault (.illegalOperand r)) }) ∧
    (r = 0 → s.cfg.mode.maxOffset < s.ip + k →
      exec (.ipInc r k) s = .next { s with
        fault := some (.offsetRangeError ((s.ip + k : Nat) : Int)),
        result := some (.fault (.offsetRangeError ((s.ip + k : Nat) : Int))) }) ∧
    (r = 0 → s.ip + k ≤ s.cfg.mode.maxOffset →
      exec (.ipInc r k) s = .next { s with ip := s.ip + k, result := some .unit })

/-- `n` commands `IP_INC IP, 1` add `n` to IP, while the sum stays in range (41_registers.md R142, its
example). -/
def Obligations.RepeatedIncrementsAddUp : Prop :=
  ∀ (n : Nat) (s : State), s.fault = none → s.ip + n ≤ s.cfg.mode.maxOffset →
    s.stream = (List.replicate n (encode (.ipInc 0 1))).flatten →
    ∃ t : State, Host.Core.run core n s = .next t ∧
      t = { s with ip := s.ip + n, stream := [], result := t.result }

/-- IP_RESET clears IP and flushes nothing (41_registers.md R143). -/
def Obligations.IpResetFollowsItsRule : Prop :=
  ∀ (s : State) (r : Nat), s.fault = none →
    encode (.ipReset r) = 0x13 :: encodeNat r ∧
    (r ≠ 0 →
      exec (.ipReset r) s = .next { s with
        fault := some (.illegalOperand r), result := some (.fault (.illegalOperand r)) }) ∧
    (r = 0 → exec (.ipReset r) s = .next { s with ip := 0, result := some .unit })

/-- SET_BASE writes one segment register, 16 bits in every mode (41_registers.md R144). -/
def Obligations.SetBaseFollowsItsRule : Prop :=
  ∀ (s : State) (r : Nat) (v : Int), s.fault = none →
    encode (.setBase r v) = 0x14 :: (encodeNat r ++ encodeInt v) ∧
    (s.segment r = none →
      exec (.setBase r v) s = .next { s with
        fault := some (.illegalOperand r), result := some (.fault (.illegalOperand r)) }) ∧
    (s.segment r ≠ none → (v < 0 ∨ 0xFFFF < v) →
      exec (.setBase r v) s = .next { s with
        fault := some (.baseRangeError v), result := some (.fault (.baseRangeError v)) }) ∧
    (s.segment r ≠ none → 0 ≤ v → v ≤ 0xFFFF →
      ∃ t, exec (.setBase r v) s = .next t ∧
        t.segment r = some v.toNat ∧ (∀ q, q ≠ r → t.segment q = s.segment q) ∧
        t = { s with seg := t.seg, segs := t.segs, result := some .unit })

/-- GET_BASE returns a segment register's base, always in [0, 0xFFFF] (41_registers.md R145). -/
def Obligations.GetBaseFollowsItsRule : Prop :=
  ∀ (s : State) (r : Nat), s.fault = none →
    encode (.getBase r) = 0x15 :: encodeNat r ∧
    (s.segment r = none →
      exec (.getBase r) s = .next { s with
        fault := some (.illegalOperand r), result := some (.fault (.illegalOperand r)) }) ∧
    (∀ v, s.segment r = some v →
      exec (.getBase r) s = .next { s with result := some (.nat v) }) ∧
    (∀ v, s.Inv → s.segment r = some v → v ≤ 0xFFFF)

/-- IP moves only by FETCH, IP_INC, IP_RESET and SET_OFFSET of IP, each as its rule says (41_registers.md
R148). -/
def Obligations.OnlyFourCommandsMoveIp : Prop :=
  ∀ (i : Instr) (s t : State), exec i s = .next t → t.ip ≠ s.ip →
    (i = .fetch ∧ t.ip = s.ip + 1) ∨ (∃ k, i = .ipInc 0 k ∧ t.ip = s.ip + k) ∨
      (i = .ipReset 0 ∧ t.ip = 0) ∨ (∃ v : Int, i = .setOffset 0 v ∧ (t.ip : Int) = v)

/-- Only SET_OFFSET writes a further pointer register, and only SET_BASE a segment register (10_state.md R32
and R33). -/
def Obligations.OnlySetCommandsWriteTheOtherRegisters : Prop :=
  ∀ (i : Instr) (s t : State), exec i s = .next t →
    (t.p ≠ s.p → ∃ r v, i = .setOffset r v) ∧
    (t.seg ≠ s.seg ∨ t.segs ≠ s.segs → ∃ r v, i = .setBase r v)

/-- A register of `w` bits has the byte image `[v[7:0], v[15:8], ...]` of `w/8` bytes (10_state.md R34). -/
def Obligations.RegisterImageIsLittleEndian : Prop :=
  ∀ w v : Nat, (registerImage w v).length = w / 8 ∧
    ∀ i, i < w / 8 → (registerImage w v)[i]? = some (BitVec.ofNat 8 (v / 2 ^ (8 * i)))

/-! ### Gates and decoder (42_decoder.md) -/

/-- NOT (42_decoder.md R160). -/
def Obligations.NotGateFollowsItsTable : Prop :=
  ∀ (s : State) (a : Byte), s.fault = none →
    encode (.notGate a) = [0x20, a] ∧
    (a ≠ 0 → a ≠ 1 →
      exec (.notGate a) s = .next { s with
        fault := some (.illegalOperand a.toNat), result := some (.fault (.illegalOperand a.toNat)) }) ∧
    (a = 0 → exec (.notGate a) s = .next { s with result := some (.bit true) }) ∧
    (a = 1 → exec (.notGate a) s = .next { s with result := some (.bit false) })

/-- AND, its operands checked in order (42_decoder.md R161). -/
def Obligations.AndGateFollowsItsTable : Prop :=
  ∀ (s : State) (a b : Byte), s.fault = none →
    encode (.andGate a b) = [0x21, a, b] ∧
    (a ≠ 0 → a ≠ 1 →
      exec (.andGate a b) s = .next { s with
        fault := some (.illegalOperand a.toNat), result := some (.fault (.illegalOperand a.toNat)) }) ∧
    ((a = 0 ∨ a = 1) → b ≠ 0 → b ≠ 1 →
      exec (.andGate a b) s = .next { s with
        fault := some (.illegalOperand b.toNat), result := some (.fault (.illegalOperand b.toNat)) }) ∧
    ((a = 0 ∨ a = 1) → (b = 0 ∨ b = 1) →
      exec (.andGate a b) s = .next { s with result := some (.bit (decide (a = 1 ∧ b = 1))) })

/-- OR, its operands checked in order (42_decoder.md R162). -/
def Obligations.OrGateFollowsItsTable : Prop :=
  ∀ (s : State) (a b : Byte), s.fault = none →
    encode (.orGate a b) = [0x22, a, b] ∧
    (a ≠ 0 → a ≠ 1 →
      exec (.orGate a b) s = .next { s with
        fault := some (.illegalOperand a.toNat), result := some (.fault (.illegalOperand a.toNat)) }) ∧
    ((a = 0 ∨ a = 1) → b ≠ 0 → b ≠ 1 →
      exec (.orGate a b) s = .next { s with
        fault := some (.illegalOperand b.toNat), result := some (.fault (.illegalOperand b.toNat)) }) ∧
    ((a = 0 ∨ a = 1) → (b = 0 ∨ b = 1) →
      exec (.orGate a b) s = .next { s with result := some (.bit (decide (a = 1 ∨ b = 1))) })

/-- CASCADE_AND: the count first, then the first byte that is no bit, then 1 exactly when every element is 1
(42_decoder.md R163). -/
def Obligations.CascadeAndFollowsItsRule : Prop :=
  ∀ (s : State) (bits : List Byte), s.fault = none →
    encode (.cascadeAnd bits) = 0x23 :: encodeBits bits ∧
    (bits.length < 2 →
      exec (.cascadeAnd bits) s = .next { s with
        fault := some (.arityError bits.length), result := some (.fault (.arityError bits.length)) }) ∧
    (∀ pre e post, 2 ≤ bits.length → bits = pre ++ e :: post → (∀ x ∈ pre, x = 0 ∨ x = 1) →
      e ≠ 0 → e ≠ 1 →
      exec (.cascadeAnd bits) s = .next { s with
        fault := some (.illegalOperand e.toNat), result := some (.fault (.illegalOperand e.toNat)) }) ∧
    (2 ≤ bits.length → (∀ x ∈ bits, x = 0 ∨ x = 1) →
      exec (.cascadeAnd bits) s = .next { s with result := some (.bit (decide (∀ x ∈ bits, x = 1))) })

/-- TRUTH_TABLE returns the 2^n rows of n bits: bit k of row i, most significant first, is bit n-1-k of i, so
row i read as a numeral is i, and every pattern of n bits occurs exactly once (42_decoder.md R164 and R165). -/
def Obligations.TruthTableEnumeratesEveryPattern : Prop :=
  ∀ (s : State) (n : Nat), s.fault = none →
    encode (.truthTable n) = 0x24 :: encodeNat n ∧
    ∃ t : List (List Bit), exec (.truthTable n) s = .next { s with result := some (.rows t) } ∧
      t.length = 2 ^ n ∧ (∀ row ∈ t, row.length = n) ∧
      (∀ (i : Nat) (row : List Bit), t[i]? = some row → ∀ k, k < n → row[k]? = some (i.testBit (n - 1 - k))) ∧
      (∀ (i : Nat) (row : List Bit), t[i]? = some row →
        row.foldl (fun acc b => 2 * acc + b.toNat) 0 = i) ∧
      (∀ x : List Bit, x.length = n → t.count x = 1)

/-- DECODED is N ones (10_state.md R24, 42_decoder.md R171). -/
def Obligations.ChipSelectVectorIsAllOnes : Prop :=
  ∀ c : Config, decodedVector c = List.replicate c.numberOfChips true

/-- The decode term of row r is the AND of one literal per input, the input or its complement as the row's bit
says; on the pattern of X it is 1 exactly when r = X (42_decoder.md R170). -/
def Obligations.DecodeTermSelectsItsOwnRow : Prop :=
  ∀ (c : Config) (r : Nat), ConfigValid c → r < c.numberOfChips →
    (∀ input : List Bit, input.length = c.chipSelectBits →
      decodeTerm c r input = decide (∀ k, k < c.chipSelectBits →
        input[k]? = some (r.testBit (c.chipSelectBits - 1 - k)))) ∧
    (∀ x, x < c.numberOfChips → decodeTerm c r (truthRow c.chipSelectBits x) = decide (r = x))

/-- DEC_LOOKUP returns the index itself for every chip, and `IndexError` outside the chips (42_decoder.md
R172). -/
def Obligations.DecLookupFollowsItsRule : Prop :=
  ∀ (s : State) (a : Int), s.fault = none →
    encode (.decLookup a) = 0x25 :: encodeInt a ∧
    ((a < 0 ∨ (s.cfg.numberOfChips : Int) ≤ a) →
      exec (.decLookup a) s = .next { s with
        fault := some (.indexError a), result := some (.fault (.indexError a)) }) ∧
    (0 ≤ a → a < (s.cfg.numberOfChips : Int) →
      exec (.decLookup a) s = .next { s with result := some (.chip (some a.toNat)) })

/-- DEC_ONEHOT returns N bits with exactly one 1, at the input's position (42_decoder.md R173). -/
def Obligations.DecOnehotFollowsItsRule : Prop :=
  ∀ (s : State) (x : Int), ConfigValid s.cfg → s.fault = none →
    encode (.decOnehot x) = 0x26 :: encodeInt x ∧
    ((x < 0 ∨ (s.cfg.numberOfChips : Int) ≤ x) →
      exec (.decOnehot x) s = .next { s with
        fault := some (.indexError x), result := some (.fault (.indexError x)) }) ∧
    (0 ≤ x → x < (s.cfg.numberOfChips : Int) →
      ∃ out : List Bit, exec (.decOnehot x) s = .next { s with result := some (.bits out) } ∧
        out.length = s.cfg.numberOfChips ∧
        ∀ r, r < s.cfg.numberOfChips → out[r]? = some (decide (r = x.toNat)))

/-! ### Memory (20_memory.md, 43_memory_ops.md) -/

/-- RAW_STORE: the bounds, then the value's width, then WORD_BYTES bytes, least significant first; every other
byte reads as before (43_memory_ops.md R180). -/
def Obligations.RawStoreFollowsItsRule : Prop :=
  ∀ (s : State) (a v : Int), s.fault = none →
    encode (.rawStore a v) = 0x31 :: (encodeInt a ++ encodeInt v) ∧
    ((a < 0 ∨ (s.cfg.totalBytes : Int) < a + s.cfg.wordBytes) →
      exec (.rawStore a v) s = .next { s with
        fault := some (.bufferBoundsFault a), result := some (.fault (.bufferBoundsFault a)) }) ∧
    (0 ≤ a → a + s.cfg.wordBytes ≤ (s.cfg.totalBytes : Int) → (v < 0 ∨ (2 ^ (8 * s.cfg.wordBytes) : Int) ≤ v) →
      exec (.rawStore a v) s = .next { s with
        fault := some (.valueWidthFault v), result := some (.fault (.valueWidthFault v)) }) ∧
    (0 ≤ a → a + s.cfg.wordBytes ≤ (s.cfg.totalBytes : Int) → 0 ≤ v → v < (2 ^ (8 * s.cfg.wordBytes) : Int) →
      ∃ t, exec (.rawStore a v) s = .next t ∧
        (∀ i, i < s.cfg.wordBytes → t.byteAt (a.toNat + i) = BitVec.ofNat 8 (v.toNat / 2 ^ (8 * i))) ∧
        (∀ b, (b < a.toNat ∨ a.toNat + s.cfg.wordBytes ≤ b) → t.byteAt b = s.byteAt b) ∧
        t = { s with mem := t.mem, result := some .unit })

/-- MEM_WRITE: the start address, then the bounds, then the width, then the bytes (43_memory_ops.md R182). -/
def Obligations.MemWriteFollowsItsRule : Prop :=
  ∀ (s : State) (a v : Int), s.fault = none →
    encode (.memWrite a v) = 0x30 :: (encodeInt a ++ encodeInt v) ∧
    ((a < 0 ∨ (s.cfg.totalBytes : Int) ≤ a) →
      exec (.memWrite a v) s = .next { s with
        fault := some (.addressOutOfRangeError a), result := some (.fault (.addressOutOfRangeError a)) }) ∧
    (0 ≤ a → a < (s.cfg.totalBytes : Int) → (s.cfg.totalBytes : Int) < a + s.cfg.wordBytes →
      exec (.memWrite a v) s = .next { s with
        fault := some (.bufferBoundsFault a), result := some (.fault (.bufferBoundsFault a)) }) ∧
    (0 ≤ a → a < (s.cfg.totalBytes : Int) → a + s.cfg.wordBytes ≤ (s.cfg.totalBytes : Int) →
      (v < 0 ∨ (2 ^ (8 * s.cfg.wordBytes) : Int) ≤ v) →
      exec (.memWrite a v) s = .next { s with
        fault := some (.valueWidthFault v), result := some (.fault (.valueWidthFault v)) }) ∧
    (0 ≤ a → a < (s.cfg.totalBytes : Int) → a + s.cfg.wordBytes ≤ (s.cfg.totalBytes : Int) →
      0 ≤ v → v < (2 ^ (8 * s.cfg.wordBytes) : Int) →
      ∃ t, exec (.memWrite a v) s = .next t ∧
        (∀ i, i < s.cfg.wordBytes → t.byteAt (a.toNat + i) = BitVec.ofNat 8 (v.toNat / 2 ^ (8 * i))) ∧
        (∀ b, (b < a.toNat ∨ a.toNat + s.cfg.wordBytes ≤ b) → t.byteAt b = s.byteAt b) ∧
        t = { s with mem := t.mem, result := some .unit })

/-- RAW_LOAD returns the sum of the word's bytes times their place values, after the bounds check
(43_memory_ops.md R181). -/
def Obligations.RawLoadFollowsItsRule : Prop :=
  ∀ (s : State) (a : Int), s.fault = none →
    encode (.rawLoad a) = 0x32 :: encodeInt a ∧
    ((a < 0 ∨ (s.cfg.totalBytes : Int) < a + s.cfg.wordBytes) →
      exec (.rawLoad a) s = .next { s with
        fault := some (.bufferBoundsFault a), result := some (.fault (.bufferBoundsFault a)) }) ∧
    (0 ≤ a → a + s.cfg.wordBytes ≤ (s.cfg.totalBytes : Int) →
      ∃ w, exec (.rawLoad a) s = .next { s with result := some (.nat w) } ∧
        w = ((List.range s.cfg.wordBytes).map
          (fun i => (s.byteAt (a.toNat + i)).toNat * 2 ^ (8 * i))).sum ∧
        w < 2 ^ (8 * s.cfg.wordBytes))

/-- What MemWrite stores, MemRead returns, as long as no byte of the word has changed since (20_memory.md
R64). -/
def Obligations.WordReadsBackAsWritten : Prop :=
  ∀ (s t : State) (a n v : Nat), v < 2 ^ (8 * n) →
    (∀ i, i < n → t.byteAt (a + i) = (s.memWrite a n v).byteAt (a + i)) → t.memRead a n = v

/-- The read path never leaves the buffer (20_memory.md R81). -/
def Obligations.ReadPathStaysInTheBuffer : Prop :=
  ∀ (c : Config) (a : Nat), ConfigValid c → a < c.numberOfChips →
    internalAddress c a + c.wordBytes ≤ c.totalBytes

/-- Only MEM_WRITE and RAW_STORE write memory: after any other command every byte reads as before
(20_memory.md R72). -/
def Obligations.OnlyStoresWriteMemory : Prop :=
  ∀ (i : Instr) (s t : State) (a : Nat), exec i s = .next t → t.byteAt a ≠ s.byteAt a →
    ∃ x v : Int, (i = .memWrite x v ∨ i = .rawStore x v) ∧ x ≤ a ∧ (a : Int) < x + s.cfg.wordBytes

/-- FETCH sees only the bytes below min(N, 2^DEPTH) - 1 + WORD_BYTES: two machines that differ in other bytes
alone fetch alike (20_memory.md R74). -/
def Obligations.FetchSeesOnlyTheReachableBytes : Prop :=
  ∀ (s u : State), ConfigValid s.cfg → u = { s with mem := u.mem } →
    (∀ a, a < min s.cfg.numberOfChips (2 ^ s.cfg.addressingDepth) - 1 + s.cfg.wordBytes →
      u.byteAt a = s.byteAt a) →
    ∀ t, exec .fetch s = .next t → exec .fetch u = .next { t with mem := u.mem }

/-! ### Microprocessor (44_cpu.md) -/

/-- FETCH: the mode, then the read cycle, then the queue, then IP (44_cpu.md R200 and R201). -/
def Obligations.FetchFollowsItsRule : Prop :=
  ∀ s : State, ConfigValid s.cfg → s.fault = none →
    encode .fetch = [0x40] ∧
    (s.cfg.mode ≠ .realMode →
      exec .fetch s = .next { s with
        fault := some (.modeNotSupported s.cfg.mode),
        result := some (.fault (.modeNotSupported s.cfg.mode)) }) ∧
    (s.cfg.mode = .realMode → s.cfg.numberOfChips ≤ s.seg * 16 + s.ip →
      exec .fetch s = .next { s with
        alatch := some (s.seg * 16 + s.ip), ctrl := { s.ctrl with read := some true }, biu := .readSignaled,
        fault := some (.indexError ((s.seg * 16 + s.ip : Nat) : Int)),
        result := some (.fault (.indexError ((s.seg * 16 + s.ip : Nat) : Int))) }) ∧
    (∀ w, s.cfg.mode = .realMode → s.seg * 16 + s.ip < s.cfg.numberOfChips →
      w = s.memRead ((s.seg * 16 + s.ip) &&& (2 ^ s.cfg.addressingDepth - 1)) s.cfg.wordBytes →
      s.ip + 1 ≤ s.cfg.mode.maxOffset →
      exec .fetch s = .next { s with
        alatch := some (s.seg * 16 + s.ip), ctrl := { s.ctrl with read := some true }, dlatch := some w,
        queue := if s.queue.length < 6 then s.queue ++ [w] else s.queue,
        ip := s.ip + 1, biu := .idle,
        result := some (.status (decide (s.queue.length < 6))) }) ∧
    (∀ w, s.cfg.mode = .realMode → s.seg * 16 + s.ip < s.cfg.numberOfChips →
      w = s.memRead ((s.seg * 16 + s.ip) &&& (2 ^ s.cfg.addressingDepth - 1)) s.cfg.wordBytes →
      s.cfg.mode.maxOffset < s.ip + 1 →
      exec .fetch s = .next { s with
        alatch := some (s.seg * 16 + s.ip), ctrl := { s.ctrl with read := some true }, dlatch := some w,
        queue := if s.queue.length < 6 then s.queue ++ [w] else s.queue,
        biu := .dequeueReady,
        fault := some (.offsetRangeError ((s.ip + 1 : Nat) : Int)),
        result := some (.fault (.offsetRangeError ((s.ip + 1 : Nat) : Int))) })

/-- DECODE: nothing from an empty queue, else its head with the collaborator's text (44_cpu.md R202). The text
is a free value (log entry 4). -/
def Obligations.DecodeFollowsItsRule : Prop :=
  ∀ s : State, s.fault = none →
    encode .decode = [0x41] ∧ AsmLine.getNextInstruction.expand s.cfg = [.decode] ∧
    (s.queue = [] → exec .decode s = .next { s with result := some (.decoded none) }) ∧
    (∀ w q, s.queue = w :: q →
      exec .decode s = .next { s with
        queue := q, result := some (.decoded (some (w, Config.dec w (8 * s.cfg.wordBytes)))) })

/-- The source's end-to-end property, for any text in the place of "M" and any number of address lines: the
first byte preloaded with a fitting text's encoding, one FETCH and one DECODE give the text back, given the
collaborator's round trip (44_cpu.md R203 and R204). -/
def Obligations.PreloadedTextIsFetchedAndDecoded : Prop :=
  ∀ (enc : Text → Nat → Nat) (c : Config) (s : State) (text : Text), Config.RoundTrip enc →
    construct c = .next s → c.mode = .realMode → c.wordBytes = 1 → enc text 8 < 256 →
    ∃ s1 s2 s3, exec (.memWrite 0 (enc text 8)) s = .next s1 ∧ s1.result = some .unit ∧
      exec .fetch s1 = .next s2 ∧ s2.result = some (.status true) ∧
      exec .decode s2 = .next s3 ∧ s3.result = some (.decoded (some (enc text 8, text)))

/-- Only FETCH adds to the queue, one word at its tail while it holds fewer than 6, and only DECODE removes,
at its head: a queued word never changes, whatever is written to memory (10_state.md R41, 20_memory.md R79). -/
def Obligations.QueueChangesOnlyAtItsEnds : Prop :=
  ∀ (i : Instr) (s t : State), exec i s = .next t → t.queue ≠ s.queue →
    (i = .fetch ∧ s.queue.length < 6 ∧ ∃ w, t.queue = s.queue ++ [w]) ∨
      (i = .decode ∧ ∃ w, s.queue = w :: t.queue)

/-- A latch changes only when its bus or line is driven, and nothing clears it (10_state.md R40). -/
def Obligations.LatchesChangeOnlyThroughDrives : Prop :=
  ∀ (i : Instr) (s t : State), exec i s = .next t →
    (t.alatch ≠ s.alatch →
      (∃ a, i = .addrSend a ∧ t.alatch = some a) ∨ (i = .fetch ∧ t.alatch = some (s.seg * 16 + s.ip))) ∧
    (t.dlatch ≠ s.dlatch → t.dlatch ≠ none ∧
      ((∃ d, i = .dataSend d ∧ t.dlatch = some d) ∨ i = .fetch ∨ i = .ctrlSend readName 1)) ∧
    (t.ctrl.read ≠ s.ctrl.read → t.ctrl.read ≠ none ∧ (i = .fetch ∨ ∃ v, i = .ctrlSend readName v)) ∧
    (t.ctrl.write ≠ s.ctrl.write → t.ctrl.write ≠ none ∧ ∃ v, i = .ctrlSend writeName v) ∧
    (t.ctrl.memoryIo ≠ s.ctrl.memoryIo → t.ctrl.memoryIo ≠ none ∧ ∃ v, i = .ctrlSend memoryIoName v)

/-- A REAL-mode FETCH that does not fault has SEG * 16 + IP below N; with at most 16 chips every SEG of 1 or
more makes FETCH raise `IndexError` (70_reset_and_hazards.md R273). -/
def Obligations.SegmentBaseLimitsFetch : Prop :=
  ∀ (s t : State), s.fault = none → s.cfg.mode = .realMode → exec .fetch s = .next t →
    (t.fault = none → s.seg * 16 + s.ip < s.cfg.numberOfChips) ∧
    (s.cfg.arch = .x86 → s.cfg.numberOfChips ≤ 16 → 1 ≤ s.seg →
      t.fault = some (.indexError ((s.seg * 16 + s.ip : Nat) : Int)))

/-! ### Construction (70_reset_and_hazards.md) -/

/-- The checks of construction, in order: the architecture and the word size are refused, a topology that does
not fit faults, and so does a decoder of fewer than two inputs (70_reset_and_hazards.md R250 and R251). -/
def Obligations.ConstructionChecksTheConfiguration : Prop :=
  ∀ c : Config,
    (∀ name, c.arch = .other name → construct c = .refused (.unsupportedArch name)) ∧
    (c.arch = .x86 → c.wordBytes ∉ [1, 2, 4] → construct c = .refused (.unsupportedWordBytes c.wordBytes)) ∧
    (c.arch = .x86 → c.wordBytes ∈ [1, 2, 4] →
      (c.bytesPerChip = 0 ∨ c.totalBytes % c.bytesPerChip ≠ 0 ∨ (∀ k, c.numberOfChips ≠ 2 ^ k) ∨
        (∀ k, c.locPerChip ≠ 2 ^ k) ∨ c.chipSelectBits + c.addressingDepth ≠ c.addressLines) →
      construct c = .fault (.construction
        (.specMismatchError c.bytesPerChip c.locPerChip c.addressLines))) ∧
    (∀ k d, c.arch = .x86 → c.wordBytes ∈ [1, 2, 4] → c.bytesPerChip ≠ 0 →
      c.totalBytes % c.bytesPerChip = 0 → c.numberOfChips = 2 ^ k → c.locPerChip = 2 ^ d →
      k + d = c.addressLines →
      (k < 2 → construct c = .fault (.construction (.arityError k))) ∧
      (2 ≤ k → ∃ s, construct c = .next s))

/-- The machines that exist are exactly those of a valid configuration: at least two decoder inputs, so at
least four chips, and exponents that sum to the address lines (70_reset_and_hazards.md R251). -/
def Obligations.ConstructedMachinesHaveValidConfigurations : Prop :=
  ∀ c : Config, (ConfigValid c ↔ ∃ s, construct c = .next s) ∧
    ∀ s, construct c = .next s → s.cfg = c ∧ 4 ≤ c.numberOfChips

/-- The state at the end of construction (70_reset_and_hazards.md R259): every register 0, every latch none,
an empty queue, an idle BIU, no fault, MEM the given INIT_BYTES, and DECODED all ones. -/
def Obligations.ConstructionLeavesTheResetState : Prop :=
  ∀ (c : Config) (s : State), construct c = .next s →
    s.ip = 0 ∧ s.seg = 0 ∧ s.p = List.replicate c.nptr 0 ∧ s.segs = List.replicate c.nseg 0 ∧
    s.queue = [] ∧ (∀ a b, c.initBytes[a]? = some b → s.byteAt a = b) ∧
    s.alatch = none ∧ s.dlatch = none ∧
    s.ctrl.read = none ∧ s.ctrl.write = none ∧ s.ctrl.memoryIo = none ∧
    s.biu = .idle ∧ s.fault = none ∧ decodedVector s.cfg = List.replicate c.numberOfChips true

/-- `State.reset` is what construction of the source's example configuration gives (model's choice of
configuration, log entry 1; 70_reset_and_hazards.md R254). -/
def Obligations.ResetIsTheSourceExampleConstructed : Prop :=
  construct Config.sourceExample = .next State.reset

/-! ### Invariants -/

/-- `State.reset` meets the invariant. -/
def Obligations.ResetMeetsTheInvariant : Prop := State.reset.Inv

/-- Every constructed machine meets the invariant (10_state.md §3 and §4). -/
def Obligations.ConstructionEstablishesTheInvariant : Prop :=
  ∀ (c : Config) (s : State), construct c = .next s → s.Inv

/-- Every step keeps the invariant: register ranges and counts, queue capacity and word width, canonical
memory inside the buffer, an idle BIU between commands, a recorded fault as the answer (10_state.md R31 to
R43). -/
def Obligations.EveryStepKeepsTheInvariant : Prop :=
  ∀ s t : State, s.Inv → step s = .next t → t.Inv

/-- No command, and no bytes at all, stop a constructed machine without a next state: each command runs to
completion or to a fault that is a next state (00_scope.md R6, 20_memory.md R81). -/
def Obligations.NoCommandStopsAConstructedMachine : Prop :=
  ∀ s : State, s.Inv → (∀ i : Instr, ∃ t, exec i s = .next t) ∧ ∃ t, step s = .next t

/-- No step changes the configuration, whatever the command (70_reset_and_hazards.md R253). -/
def Obligations.ConfigurationNeverChanges : Prop :=
  ∀ s t : State, step s = .next t → t.cfg = s.cfg ∧ decodedVector t.cfg = decodedVector s.cfg
end

