-- ==== Sys2Proof/Machine/Assembler.lean ====
section
/-! DEFINITION. The assembly syntax of 30_encoding.md R102 as text, one line at a time, and the source's call
spellings of R103. Text that is no line of assembly is refused with `none`; no command's meaning uses this file. -/

namespace Sys2Proof.Machine

/-! ### Words, numbers and names -/

/-- A piece of a line. -/
inductive Token where
  /-- A mnemonic, a register name, `true` or `false`. -/
  | word (w : String)
  /-- A number. -/
  | num (v : Int)
  /-- A name in double quotes. -/
  | name (bs : Name)
  | comma
  | openList
  | closeList
deriving DecidableEq, Repr

/-- The value of a digit in a base of at most 16. -/
def digitValue (base : Nat) (c : Char) : Option Nat :=
  let n := c.toNat
  let v :=
    if 48 ≤ n ∧ n ≤ 57 then n - 48
    else if 65 ≤ n ∧ n ≤ 70 then n - 55
    else if 97 ≤ n ∧ n ≤ 102 then n - 87
    else 16
  if v < base then some v else none

/-- The digits of a numeral after the ones read into `acc`. -/
def digitsValue (base : Nat) : Nat → List Char → Option Nat
  | acc, [] => some acc
  | acc, c :: cs =>
    match digitValue base c with
    | some d => digitsValue base (acc * base + d) cs
    | none => none

/-- A numeral without sign: decimal, or hexadecimal with prefix `0x` (R102). -/
def numeral : List Char → Option Nat
  | [] => none
  | '0' :: 'x' :: c :: cs => digitsValue 16 0 (c :: cs)
  | c :: cs => digitsValue 10 0 (c :: cs)

/-- A number with an optional leading `-` (R102). -/
def number : List Char → Option Int
  | '-' :: cs => (numeral cs).map (fun v => -(v : Int))
  | cs => (numeral cs).map (fun v => (v : Int))

/-- The characters of mnemonics and register names. -/
def isWordChar (c : Char) : Bool := c.isAlphanum || c == '_'

/-- A piece outside quotes: a number or a word. -/
def bareToken (cs : List Char) : Option Token :=
  match number cs with
  | some v => some (.num v)
  | none => if cs.all isWordChar then some (.word (String.ofList cs)) else none

/-- The bytes of a quoted name: one per character below 128 (30_encoding.md R92). -/
def nameBytes (cs : List Char) : Option Name :=
  if cs.all (fun c => c.toNat < 128) then some (cs.map (fun c => BitVec.ofNat 8 c.toNat)) else none

/-! ### Lines into tokens -/

/-- What the reader of a line is in the middle of, its characters last first. -/
inductive Reading where
  | between
  | bare (cs : List Char)
  | quoted (cs : List Char)
deriving DecidableEq, Repr

/-- The token a reading ends in, if it may end here; a name may not end at the end of the line. -/
def Reading.finish : Reading → Option (List Token)
  | .between => some []
  | .bare cs => (bareToken cs.reverse).map (fun t => [t])
  | .quoted _ => none

/-- Two pieces of a line one after the other. -/
def joinTokens (a b : Option (List Token)) : Option (List Token) :=
  match a, b with
  | some xs, some ys => some (xs ++ ys)
  | _, _ => none

/-- The punctuation of R102. -/
def punctuation (c : Char) : Option Token :=
  if c = ',' then some .comma
  else if c = '[' then some .openList
  else if c = ']' then some .closeList
  else none

/-- The double quote. -/
def quote : Char := Char.ofNat 34

/-- The tokens of a line. `;` outside a name begins a comment (R102). -/
def lexFrom : Reading → List Char → Option (List Token)
  | r, [] => r.finish
  | .quoted cs, c :: rest =>
    if c = quote then
      joinTokens ((nameBytes cs.reverse).map (fun bs => [.name bs])) (lexFrom .between rest)
    else lexFrom (.quoted (c :: cs)) rest
  | .bare cs, c :: rest =>
    if c = ';' then (Reading.bare cs).finish
    else if c.isWhitespace then joinTokens (Reading.bare cs).finish (lexFrom .between rest)
    else if c = quote then joinTokens (Reading.bare cs).finish (lexFrom (.quoted []) rest)
    else match punctuation c with
      | some t => joinTokens (Reading.bare cs).finish (joinTokens (some [t]) (lexFrom .between rest))
      | none => lexFrom (.bare (c :: cs)) rest
  | .between, c :: rest =>
    if c = ';' then some []
    else if c.isWhitespace then lexFrom .between rest
    else if c = quote then lexFrom (.quoted []) rest
    else match punctuation c with
      | some t => joinTokens (some [t]) (lexFrom .between rest)
      | none => lexFrom (.bare [c]) rest

/-! ### Tokens into operands -/

/-- An operand as written. -/
inductive AsmOperand where
  | word (w : String)
  | num (v : Int)
  | name (bs : Name)
  | list (vs : List Int)
deriving DecidableEq, Repr

/-- The rest of a bracketed list after an element, and the tokens after the list. -/
def listTail : List Token → Option (List Int × List Token)
  | .closeList :: rest => some ([], rest)
  | .comma :: .num v :: rest => (listTail rest).map (fun p => (v :: p.1, p.2))
  | _ => none

/-- A bracketed list after its bracket. -/
def listBody : List Token → Option (List Int × List Token)
  | .closeList :: rest => some ([], rest)
  | .num v :: rest => (listTail rest).map (fun p => (v :: p.1, p.2))
  | _ => none

/-- One operand and the tokens after it. -/
def oneOperand : List Token → Option (AsmOperand × List Token)
  | .word w :: rest => some (.word w, rest)
  | .num v :: rest => some (.num v, rest)
  | .name bs :: rest => some (.name bs, rest)
  | .openList :: rest => (listBody rest).map (fun p => (.list p.1, p.2))
  | _ => none

/-- At most `fuel` operands with commas between them, up to the end of the line. -/
def operandsFrom : Nat → List Token → Option (List AsmOperand)
  | 0, _ => none
  | fuel + 1, ts =>
    match oneOperand ts with
    | some (o, []) => some [o]
    | some (o, .comma :: rest) => (operandsFrom fuel rest).map (o :: ·)
    | _ => none

/-- The operands of a command line; a command may have none. -/
def asmOperands : List Token → Option (List AsmOperand)
  | [] => some []
  | ts => operandsFrom ts.length ts

/-! ### Operands into commands -/

/-- A register by name: `IP`, `SEG`, `P0` ..., `S0` ... (10_state.md R30). -/
def regOfWord (c : Config) (w : String) : Option Nat :=
  match w.toList with
  | ['I', 'P'] => some (RegName.number c .ip)
  | ['S', 'E', 'G'] => some (RegName.number c .seg)
  | 'P' :: d :: ds =>
    (digitsValue 10 0 (d :: ds)).bind
      (fun i => if i < c.nptr then some (RegName.number c (.pointer i)) else none)
  | 'S' :: d :: ds =>
    (digitsValue 10 0 (d :: ds)).bind
      (fun j => if j < c.nseg then some (RegName.number c (.segment j)) else none)
  | _ => none

/-- A `Nat` operand. -/
def AsmOperand.nat : AsmOperand → Option Nat
  | .num v => if 0 ≤ v then some v.toNat else none
  | _ => none

/-- An `Int` operand. -/
def AsmOperand.int : AsmOperand → Option Int
  | .num v => some v
  | _ => none

/-- A register operand, by number or by name. -/
def AsmOperand.reg (c : Config) : AsmOperand → Option Nat
  | .word w => regOfWord c w
  | o => o.nat

/-- The byte of a bit written as a number. -/
def bitByte (v : Int) : Option Byte := if v = 0 then some 0 else if v = 1 then some 1 else none

/-- A `Bit` operand. -/
def AsmOperand.bit : AsmOperand → Option Byte
  | .num v => bitByte v
  | _ => none

/-- A control payload: a bit, `true` or `false`. -/
def AsmOperand.payload : AsmOperand → Option Byte
  | .word "true" => some 1
  | .word "false" => some 0
  | o => o.bit

/-- The bytes of a bit list. -/
def bitBytes : List Int → Option (List Byte)
  | [] => some []
  | v :: vs =>
    match bitByte v, bitBytes vs with
    | some b, some bs => some (b :: bs)
    | _, _ => none

/-- A command of one operand. -/
def line1 {α : Type} (mk : α → AsmLine) (a : Option α) : Option AsmLine := a.map mk

/-- A command of two operands. -/
def line2 {α β : Type} (mk : α → β → AsmLine) (a : Option α) (b : Option β) : Option AsmLine :=
  match a, b with
  | some x, some y => some (mk x y)
  | _, _ => none

/-- The line a mnemonic and its operands make (R99 and R102, and PRELOAD of R104). The length of a name is checked
by `assembleLine`; a channel key may be of any length, since it is ignored (R102, log entry 12). -/
def asmLine (c : Config) (mnemonic : String) (ops : List AsmOperand) : Option AsmLine :=
  match mnemonic, ops with
  | "ADDR_SEND", [a] => line1 (.plain ∘ .addrSend) a.nat
  | "ADDR_SEND", [.name key, a] => line1 (.addrSendKeyed key) a.nat
  | "DATA_SEND", [d] => line1 (.plain ∘ .dataSend) d.nat
  | "DATA_SEND", [.name key, d] => line1 (.dataSendKeyed key) d.nat
  | "CTRL_SEND", [.name s, v] => line1 (.plain ∘ .ctrlSend s) v.payload
  | "SET_OFFSET", [r, v] => line2 (fun x y => .plain (.setOffset x y)) (r.reg c) v.int
  | "GET_OFFSET", [r] => line1 (.plain ∘ .getOffset) (r.reg c)
  | "IP_INC", [r] => line1 .ipIncDefault (r.reg c)
  | "IP_INC", [r, k] => line2 (fun x y => .plain (.ipInc x y)) (r.reg c) k.nat
  | "IP_RESET", [r] => line1 (.plain ∘ .ipReset) (r.reg c)
  | "SET_BASE", [r, v] => line2 (fun x y => .plain (.setBase x y)) (r.reg c) v.int
  | "GET_BASE", [r] => line1 (.plain ∘ .getBase) (r.reg c)
  | "NOT", [a] => line1 (.plain ∘ .notGate) a.bit
  | "AND", [a, b] => line2 (fun x y => .plain (.andGate x y)) a.bit b.bit
  | "OR", [a, b] => line2 (fun x y => .plain (.orGate x y)) a.bit b.bit
  | "CASCADE_AND", [.list vs] => line1 (.plain ∘ .cascadeAnd) (bitBytes vs)
  | "TRUTH_TABLE", [n] => line1 (.plain ∘ .truthTable) n.nat
  | "DEC_LOOKUP", [a] => line1 (.plain ∘ .decLookup) a.int
  | "DEC_ONEHOT", [x] => line1 (.plain ∘ .decOnehot) x.int
  | "MEM_WRITE", [a, v] => line2 (fun x y => .plain (.memWrite x y)) a.int v.int
  | "RAW_STORE", [a, v] => line2 (fun x y => .plain (.rawStore x y)) a.int v.int
  | "RAW_LOAD", [a] => line1 (.plain ∘ .rawLoad) a.int
  | "FETCH", [] => some (.plain .fetch)
  | "DECODE", [] => some (.plain .decode)
  | "GET_NEXT_INSTRUCTION", [] => some .getNextInstruction
  | "PRELOAD", [a, .list vs] => line1 (fun x => .preload x vs) a.int
  | _, _ => none

/-- Every command has an encoding: no name in it is longer than the 255 bytes of R92. -/
def encodable (is : List Instr) : Bool := is.all Instr.wellFormed

/-- The commands of one line of text: none for a blank line or a comment (R102). DESIGN CHOICE (log entry 12): a
line whose command has no encoding, a CTRL_SEND with a name of more than 255 bytes, is refused; R92 has no such
name, and R102 does not say what an assembler does with one. -/
def assembleLine (c : Config) (text : List Char) : Option (List Instr) :=
  match lexFrom .between text with
  | some [] => some []
  | some (.word m :: ts) => (((asmOperands ts).bind (asmLine c m)).map (AsmLine.expand c)).filter encodable
  | _ => none

/-- The bytes of a program, one line of text each (R90 and R102). -/
def assemble (c : Config) : List (List Char) → Option (List Byte)
  | [] => some []
  | l :: ls =>
    match assembleLine c l, assemble c ls with
    | some is, some bs => some ((is.map encode).flatten ++ bs)
    | _, _ => none

/-! ### The source's own spellings (30_encoding.md R103) -/

/-- A call as the source writes it. -/
inductive SourceCall where
  | addressBusSend (a : Nat)
  | dataBusSend (d : Nat)
  | controlBusSend (name : Name) (v : Bool)
  | setOffset (r : Nat) (v : Int)
  | getOffsetValue (r : Nat)
  | increment (n : Nat)
  | reset
  | getBaseAddress (r : Nat)
  | notCall (a : Byte)
  | andCall (a b : Byte)
  | orCall (a b : Byte)
  | cascadeAndCall (bits : List Byte)
  | generateTruthTable (n : Nat)
  | getChipSelectionValue (a : Int)
  | memoryWrite (a v : Int)
  | storeValue (a v : Int)
  | getValue (a : Int)
  | cpuFetch
  | cpuDecode
  | getNextInstruction
deriving DecidableEq, Repr

/-- The command a call stands for. -/
def SourceCall.command : SourceCall → Instr
  | .addressBusSend a => .addrSend a
  | .dataBusSend d => .dataSend d
  | .controlBusSend name v => .ctrlSend name (if v then 1 else 0)
  | .setOffset r v => .setOffset r v
  | .getOffsetValue r => .getOffset r
  | .increment n => .ipInc 0 n
  | .reset => .ipReset 0
  | .getBaseAddress r => .getBase r
  | .notCall a => .notGate a
  | .andCall a b => .andGate a b
  | .orCall a b => .orGate a b
  | .cascadeAndCall bits => .cascadeAnd bits
  | .generateTruthTable n => .truthTable n
  | .getChipSelectionValue a => .decLookup a
  | .memoryWrite a v => .memWrite a v
  | .storeValue a v => .rawStore a v
  | .getValue a => .rawLoad a
  | .cpuFetch => .fetch
  | .cpuDecode => .decode
  | .getNextInstruction => .decode

end Sys2Proof.Machine
end

