-- ==== Sys2Proof/Laws/Assembler.lean ====
section
/-! SUPPORT. What the assembler gives has an encoding: no line becomes the bytes of another command. -/

namespace Sys2Proof.Machine

/-- Every command of an assembled line is well-formed (30_encoding.md R92). -/
theorem wellFormed_of_assembleLine {c : Config} {text : List Char} {is : List Instr}
    (h : assembleLine c text = some is) {i : Instr} (hi : i ∈ is) : i.wellFormed = true := by
  unfold assembleLine at h
  split at h
  · cases h
    cases hi
  · exact List.all_eq_true.1 (Option.filter_eq_some_iff.1 h).2 i hi
  · cases h

end Sys2Proof.Machine
end

