-- ==== Sys2Proof/Laws/Decoder.lean ====
section
/-! SUPPORT. The decoder's pieces, each said once: the fold of AND, the rows of the truth table, and the
literals. -/

namespace Sys2Proof.Machine

theorem foldl_gateAnd (bs : List Bit) (b : Bit) : bs.foldl gateAnd b = (b && bs.all id) := by
  induction bs generalizing b with
  | nil => simp
  | cons c bs ih => simp [ih, gateAnd, Bool.and_assoc]

/-- CASCADE_AND is 1 exactly when every input is (42_decoder.md R163). -/
theorem cascade_eq_all (bs : List Bit) : cascade bs = bs.all id := by
  cases bs with
  | nil => rfl
  | cons b bs => simp [cascade, foldl_gateAnd]

@[simp] theorem truthRow_length (n i : Nat) : (truthRow n i).length = n := by simp [truthRow]

theorem truthRow_getElem? (n i k : Nat) (h : k < n) : (truthRow n i)[k]? = some (i.testBit (n - 1 - k)) := by
  simp [truthRow, h]

/-- A literal is 1 exactly when the input has the row's bit (42_decoder.md R170). -/
theorem literal_eq_beq (t b : Bit) : literal t b = (t == b) := by
  cases t <;> cases b <;> rfl

theorem all_zipWith_beq_self (bs : List Bit) : (List.zipWith literal bs bs).all id = true := by
  induction bs with
  | nil => rfl
  | cons b bs ih => simp [literal_eq_beq]

theorem eq_of_all_zipWith_beq {xs ys : List Bit} (hlen : xs.length = ys.length)
    (h : (List.zipWith literal xs ys).all id = true) : xs = ys := by
  induction xs generalizing ys with
  | nil => cases ys with
    | nil => rfl
    | cons y ys => simp at hlen
  | cons x xs ih =>
    cases ys with
    | nil => simp at hlen
    | cons y ys =>
      simp only [List.zipWith_cons_cons, List.all_cons, literal_eq_beq, id, Bool.and_eq_true, beq_iff_eq] at h
      rw [h.1, ih (by simpa using hlen) h.2]

/-- Rows of numbers below 2^n determine the number. -/
theorem truthRow_injective {n i j : Nat} (hi : i < 2 ^ n) (hj : j < 2 ^ n)
    (h : truthRow n i = truthRow n j) : i = j := by
  apply Nat.eq_of_testBit_eq
  intro k
  by_cases hk : k < n
  · have h1 := truthRow_getElem? n i (n - 1 - k) (by omega)
    have h2 := truthRow_getElem? n j (n - 1 - k) (by omega)
    rw [h, h2, show n - 1 - (n - 1 - k) = k by omega] at h1
    exact (Option.some.inj h1).symm
  · have h2k : 2 ^ n ≤ 2 ^ k := Nat.pow_le_pow_right (by omega) (by omega)
    rw [Nat.testBit_lt_two_pow (by omega), Nat.testBit_lt_two_pow (by omega)]

/-- A row's term on its own pattern is 1, so every chip is selected (42_decoder.md R171). -/
theorem decodedBit_eq_true (c : Config) (r : Nat) : decodedBit c r = true := by
  rw [decodedBit, decodeTerm, cascade_eq_all, all_zipWith_beq_self]

theorem chipSelection_eq (c : Config) (a : Nat) : chipSelection c a = some a := by
  simp [chipSelection, decodedBit_eq_true]

end Sys2Proof.Machine
end

