-- ==== Sys2Proof/Laws/State.lean ====
section
/-! SUPPORT. What each named update of State leaves in each field, so that no later proof unfolds a record
update. -/

namespace Sys2Proof.Machine

/-! ### `setAlatch` -/

@[simp] theorem State.setAlatch_cfg (s : State) (a : Nat) : (s.setAlatch a).cfg = s.cfg := rfl
@[simp] theorem State.setAlatch_ip (s : State) (a : Nat) : (s.setAlatch a).ip = s.ip := rfl
@[simp] theorem State.setAlatch_seg (s : State) (a : Nat) : (s.setAlatch a).seg = s.seg := rfl
@[simp] theorem State.setAlatch_p (s : State) (a : Nat) : (s.setAlatch a).p = s.p := rfl
@[simp] theorem State.setAlatch_segs (s : State) (a : Nat) : (s.setAlatch a).segs = s.segs := rfl
@[simp] theorem State.setAlatch_queue (s : State) (a : Nat) : (s.setAlatch a).queue = s.queue := rfl
@[simp] theorem State.setAlatch_mem (s : State) (a : Nat) : (s.setAlatch a).mem = s.mem := rfl
@[simp] theorem State.setAlatch_alatch (s : State) (a : Nat) : (s.setAlatch a).alatch = some a := rfl
@[simp] theorem State.setAlatch_dlatch (s : State) (a : Nat) : (s.setAlatch a).dlatch = s.dlatch := rfl
@[simp] theorem State.setAlatch_ctrl (s : State) (a : Nat) : (s.setAlatch a).ctrl = s.ctrl := rfl
@[simp] theorem State.setAlatch_biu (s : State) (a : Nat) : (s.setAlatch a).biu = s.biu := rfl
@[simp] theorem State.setAlatch_fault (s : State) (a : Nat) : (s.setAlatch a).fault = s.fault := rfl
@[simp] theorem State.setAlatch_stream (s : State) (a : Nat) : (s.setAlatch a).stream = s.stream := rfl
@[simp] theorem State.setAlatch_result (s : State) (a : Nat) : (s.setAlatch a).result = s.result := rfl

/-! ### `setDlatch` -/

@[simp] theorem State.setDlatch_cfg (s : State) (d : Nat) : (s.setDlatch d).cfg = s.cfg := rfl
@[simp] theorem State.setDlatch_ip (s : State) (d : Nat) : (s.setDlatch d).ip = s.ip := rfl
@[simp] theorem State.setDlatch_seg (s : State) (d : Nat) : (s.setDlatch d).seg = s.seg := rfl
@[simp] theorem State.setDlatch_p (s : State) (d : Nat) : (s.setDlatch d).p = s.p := rfl
@[simp] theorem State.setDlatch_segs (s : State) (d : Nat) : (s.setDlatch d).segs = s.segs := rfl
@[simp] theorem State.setDlatch_queue (s : State) (d : Nat) : (s.setDlatch d).queue = s.queue := rfl
@[simp] theorem State.setDlatch_mem (s : State) (d : Nat) : (s.setDlatch d).mem = s.mem := rfl
@[simp] theorem State.setDlatch_alatch (s : State) (d : Nat) : (s.setDlatch d).alatch = s.alatch := rfl
@[simp] theorem State.setDlatch_dlatch (s : State) (d : Nat) : (s.setDlatch d).dlatch = some d := rfl
@[simp] theorem State.setDlatch_ctrl (s : State) (d : Nat) : (s.setDlatch d).ctrl = s.ctrl := rfl
@[simp] theorem State.setDlatch_biu (s : State) (d : Nat) : (s.setDlatch d).biu = s.biu := rfl
@[simp] theorem State.setDlatch_fault (s : State) (d : Nat) : (s.setDlatch d).fault = s.fault := rfl
@[simp] theorem State.setDlatch_stream (s : State) (d : Nat) : (s.setDlatch d).stream = s.stream := rfl
@[simp] theorem State.setDlatch_result (s : State) (d : Nat) : (s.setDlatch d).result = s.result := rfl

/-! ### `setBiu` -/

@[simp] theorem State.setBiu_cfg (s : State) (ph : BiuPhase) : (s.setBiu ph).cfg = s.cfg := rfl
@[simp] theorem State.setBiu_ip (s : State) (ph : BiuPhase) : (s.setBiu ph).ip = s.ip := rfl
@[simp] theorem State.setBiu_seg (s : State) (ph : BiuPhase) : (s.setBiu ph).seg = s.seg := rfl
@[simp] theorem State.setBiu_p (s : State) (ph : BiuPhase) : (s.setBiu ph).p = s.p := rfl
@[simp] theorem State.setBiu_segs (s : State) (ph : BiuPhase) : (s.setBiu ph).segs = s.segs := rfl
@[simp] theorem State.setBiu_queue (s : State) (ph : BiuPhase) : (s.setBiu ph).queue = s.queue := rfl
@[simp] theorem State.setBiu_mem (s : State) (ph : BiuPhase) : (s.setBiu ph).mem = s.mem := rfl
@[simp] theorem State.setBiu_alatch (s : State) (ph : BiuPhase) : (s.setBiu ph).alatch = s.alatch := rfl
@[simp] theorem State.setBiu_dlatch (s : State) (ph : BiuPhase) : (s.setBiu ph).dlatch = s.dlatch := rfl
@[simp] theorem State.setBiu_ctrl (s : State) (ph : BiuPhase) : (s.setBiu ph).ctrl = s.ctrl := rfl
@[simp] theorem State.setBiu_biu (s : State) (ph : BiuPhase) : (s.setBiu ph).biu = ph := rfl
@[simp] theorem State.setBiu_fault (s : State) (ph : BiuPhase) : (s.setBiu ph).fault = s.fault := rfl
@[simp] theorem State.setBiu_stream (s : State) (ph : BiuPhase) : (s.setBiu ph).stream = s.stream := rfl
@[simp] theorem State.setBiu_result (s : State) (ph : BiuPhase) : (s.setBiu ph).result = s.result := rfl

/-! ### `setQueue` -/

@[simp] theorem State.setQueue_cfg (s : State) (q : List Nat) : (s.setQueue q).cfg = s.cfg := rfl
@[simp] theorem State.setQueue_ip (s : State) (q : List Nat) : (s.setQueue q).ip = s.ip := rfl
@[simp] theorem State.setQueue_seg (s : State) (q : List Nat) : (s.setQueue q).seg = s.seg := rfl
@[simp] theorem State.setQueue_p (s : State) (q : List Nat) : (s.setQueue q).p = s.p := rfl
@[simp] theorem State.setQueue_segs (s : State) (q : List Nat) : (s.setQueue q).segs = s.segs := rfl
@[simp] theorem State.setQueue_queue (s : State) (q : List Nat) : (s.setQueue q).queue = q := rfl
@[simp] theorem State.setQueue_mem (s : State) (q : List Nat) : (s.setQueue q).mem = s.mem := rfl
@[simp] theorem State.setQueue_alatch (s : State) (q : List Nat) : (s.setQueue q).alatch = s.alatch := rfl
@[simp] theorem State.setQueue_dlatch (s : State) (q : List Nat) : (s.setQueue q).dlatch = s.dlatch := rfl
@[simp] theorem State.setQueue_ctrl (s : State) (q : List Nat) : (s.setQueue q).ctrl = s.ctrl := rfl
@[simp] theorem State.setQueue_biu (s : State) (q : List Nat) : (s.setQueue q).biu = s.biu := rfl
@[simp] theorem State.setQueue_fault (s : State) (q : List Nat) : (s.setQueue q).fault = s.fault := rfl
@[simp] theorem State.setQueue_stream (s : State) (q : List Nat) : (s.setQueue q).stream = s.stream := rfl
@[simp] theorem State.setQueue_result (s : State) (q : List Nat) : (s.setQueue q).result = s.result := rfl

/-! ### `setIp` -/

@[simp] theorem State.setIp_cfg (s : State) (v : Nat) : (s.setIp v).cfg = s.cfg := rfl
@[simp] theorem State.setIp_ip (s : State) (v : Nat) : (s.setIp v).ip = v := rfl
@[simp] theorem State.setIp_seg (s : State) (v : Nat) : (s.setIp v).seg = s.seg := rfl
@[simp] theorem State.setIp_p (s : State) (v : Nat) : (s.setIp v).p = s.p := rfl
@[simp] theorem State.setIp_segs (s : State) (v : Nat) : (s.setIp v).segs = s.segs := rfl
@[simp] theorem State.setIp_queue (s : State) (v : Nat) : (s.setIp v).queue = s.queue := rfl
@[simp] theorem State.setIp_mem (s : State) (v : Nat) : (s.setIp v).mem = s.mem := rfl
@[simp] theorem State.setIp_alatch (s : State) (v : Nat) : (s.setIp v).alatch = s.alatch := rfl
@[simp] theorem State.setIp_dlatch (s : State) (v : Nat) : (s.setIp v).dlatch = s.dlatch := rfl
@[simp] theorem State.setIp_ctrl (s : State) (v : Nat) : (s.setIp v).ctrl = s.ctrl := rfl
@[simp] theorem State.setIp_biu (s : State) (v : Nat) : (s.setIp v).biu = s.biu := rfl
@[simp] theorem State.setIp_fault (s : State) (v : Nat) : (s.setIp v).fault = s.fault := rfl
@[simp] theorem State.setIp_stream (s : State) (v : Nat) : (s.setIp v).stream = s.stream := rfl
@[simp] theorem State.setIp_result (s : State) (v : Nat) : (s.setIp v).result = s.result := rfl

/-! ### `setFault` -/

@[simp] theorem State.setFault_cfg (s : State) (f : CoreFault) : (s.setFault f).cfg = s.cfg := rfl
@[simp] theorem State.setFault_ip (s : State) (f : CoreFault) : (s.setFault f).ip = s.ip := rfl
@[simp] theorem State.setFault_seg (s : State) (f : CoreFault) : (s.setFault f).seg = s.seg := rfl
@[simp] theorem State.setFault_p (s : State) (f : CoreFault) : (s.setFault f).p = s.p := rfl
@[simp] theorem State.setFault_segs (s : State) (f : CoreFault) : (s.setFault f).segs = s.segs := rfl
@[simp] theorem State.setFault_queue (s : State) (f : CoreFault) : (s.setFault f).queue = s.queue := rfl
@[simp] theorem State.setFault_mem (s : State) (f : CoreFault) : (s.setFault f).mem = s.mem := rfl
@[simp] theorem State.setFault_alatch (s : State) (f : CoreFault) : (s.setFault f).alatch = s.alatch := rfl
@[simp] theorem State.setFault_dlatch (s : State) (f : CoreFault) : (s.setFault f).dlatch = s.dlatch := rfl
@[simp] theorem State.setFault_ctrl (s : State) (f : CoreFault) : (s.setFault f).ctrl = s.ctrl := rfl
@[simp] theorem State.setFault_biu (s : State) (f : CoreFault) : (s.setFault f).biu = s.biu := rfl
@[simp] theorem State.setFault_fault (s : State) (f : CoreFault) : (s.setFault f).fault = some f := rfl
@[simp] theorem State.setFault_stream (s : State) (f : CoreFault) : (s.setFault f).stream = s.stream := rfl
@[simp] theorem State.setFault_result (s : State) (f : CoreFault) : (s.setFault f).result = s.result := rfl

/-! ### `setResult` -/

@[simp] theorem State.setResult_cfg (s : State) (r : Result) : (s.setResult r).cfg = s.cfg := rfl
@[simp] theorem State.setResult_ip (s : State) (r : Result) : (s.setResult r).ip = s.ip := rfl
@[simp] theorem State.setResult_seg (s : State) (r : Result) : (s.setResult r).seg = s.seg := rfl
@[simp] theorem State.setResult_p (s : State) (r : Result) : (s.setResult r).p = s.p := rfl
@[simp] theorem State.setResult_segs (s : State) (r : Result) : (s.setResult r).segs = s.segs := rfl
@[simp] theorem State.setResult_queue (s : State) (r : Result) : (s.setResult r).queue = s.queue := rfl
@[simp] theorem State.setResult_mem (s : State) (r : Result) : (s.setResult r).mem = s.mem := rfl
@[simp] theorem State.setResult_alatch (s : State) (r : Result) : (s.setResult r).alatch = s.alatch := rfl
@[simp] theorem State.setResult_dlatch (s : State) (r : Result) : (s.setResult r).dlatch = s.dlatch := rfl
@[simp] theorem State.setResult_ctrl (s : State) (r : Result) : (s.setResult r).ctrl = s.ctrl := rfl
@[simp] theorem State.setResult_biu (s : State) (r : Result) : (s.setResult r).biu = s.biu := rfl
@[simp] theorem State.setResult_fault (s : State) (r : Result) : (s.setResult r).fault = s.fault := rfl
@[simp] theorem State.setResult_stream (s : State) (r : Result) : (s.setResult r).stream = s.stream := rfl
@[simp] theorem State.setResult_result (s : State) (r : Result) : (s.setResult r).result = some r := rfl

/-! ### `setStream` -/

@[simp] theorem State.setStream_cfg (s : State) (bs : List Byte) : (s.setStream bs).cfg = s.cfg := rfl
@[simp] theorem State.setStream_ip (s : State) (bs : List Byte) : (s.setStream bs).ip = s.ip := rfl
@[simp] theorem State.setStream_seg (s : State) (bs : List Byte) : (s.setStream bs).seg = s.seg := rfl
@[simp] theorem State.setStream_p (s : State) (bs : List Byte) : (s.setStream bs).p = s.p := rfl
@[simp] theorem State.setStream_segs (s : State) (bs : List Byte) : (s.setStream bs).segs = s.segs := rfl
@[simp] theorem State.setStream_queue (s : State) (bs : List Byte) : (s.setStream bs).queue = s.queue := rfl
@[simp] theorem State.setStream_mem (s : State) (bs : List Byte) : (s.setStream bs).mem = s.mem := rfl
@[simp] theorem State.setStream_alatch (s : State) (bs : List Byte) : (s.setStream bs).alatch = s.alatch := rfl
@[simp] theorem State.setStream_dlatch (s : State) (bs : List Byte) : (s.setStream bs).dlatch = s.dlatch := rfl
@[simp] theorem State.setStream_ctrl (s : State) (bs : List Byte) : (s.setStream bs).ctrl = s.ctrl := rfl
@[simp] theorem State.setStream_biu (s : State) (bs : List Byte) : (s.setStream bs).biu = s.biu := rfl
@[simp] theorem State.setStream_fault (s : State) (bs : List Byte) : (s.setStream bs).fault = s.fault := rfl
@[simp] theorem State.setStream_stream (s : State) (bs : List Byte) : (s.setStream bs).stream = bs := rfl
@[simp] theorem State.setStream_result (s : State) (bs : List Byte) : (s.setStream bs).result = s.result := rfl

/-! ### `setControl`, `setPointer`, `setSegment`, `memWrite` -/

@[simp] theorem State.setControl_cfg (s : State) (line : Signal) (v : Bool) :
    (s.setControl line v).cfg = s.cfg := by cases line <;> rfl
@[simp] theorem State.setControl_ip (s : State) (line : Signal) (v : Bool) :
    (s.setControl line v).ip = s.ip := by cases line <;> rfl
@[simp] theorem State.setControl_seg (s : State) (line : Signal) (v : Bool) :
    (s.setControl line v).seg = s.seg := by cases line <;> rfl
@[simp] theorem State.setControl_p (s : State) (line : Signal) (v : Bool) :
    (s.setControl line v).p = s.p := by cases line <;> rfl
@[simp] theorem State.setControl_segs (s : State) (line : Signal) (v : Bool) :
    (s.setControl line v).segs = s.segs := by cases line <;> rfl
@[simp] theorem State.setControl_queue (s : State) (line : Signal) (v : Bool) :
    (s.setControl line v).queue = s.queue := by cases line <;> rfl
@[simp] theorem State.setControl_mem (s : State) (line : Signal) (v : Bool) :
    (s.setControl line v).mem = s.mem := by cases line <;> rfl
@[simp] theorem State.setControl_alatch (s : State) (line : Signal) (v : Bool) :
    (s.setControl line v).alatch = s.alatch := by cases line <;> rfl
@[simp] theorem State.setControl_dlatch (s : State) (line : Signal) (v : Bool) :
    (s.setControl line v).dlatch = s.dlatch := by cases line <;> rfl
@[simp] theorem State.setControl_biu (s : State) (line : Signal) (v : Bool) :
    (s.setControl line v).biu = s.biu := by cases line <;> rfl
@[simp] theorem State.setControl_fault (s : State) (line : Signal) (v : Bool) :
    (s.setControl line v).fault = s.fault := by cases line <;> rfl
@[simp] theorem State.setControl_stream (s : State) (line : Signal) (v : Bool) :
    (s.setControl line v).stream = s.stream := by cases line <;> rfl
@[simp] theorem State.setControl_result (s : State) (line : Signal) (v : Bool) :
    (s.setControl line v).result = s.result := by cases line <;> rfl
@[simp] theorem State.setControl_ctrl_read (s : State) (v : Bool) :
    (s.setControl .read v).ctrl = { s.ctrl with read := some v } := rfl
@[simp] theorem State.setControl_ctrl_write (s : State) (v : Bool) :
    (s.setControl .write v).ctrl = { s.ctrl with write := some v } := rfl
@[simp] theorem State.setControl_ctrl_memoryIo (s : State) (v : Bool) :
    (s.setControl .memoryIo v).ctrl = { s.ctrl with memoryIo := some v } := rfl

@[simp] theorem State.setPointer_cfg (s : State) (r v : Nat) : (s.setPointer r v).cfg = s.cfg := by
  unfold State.setPointer; split <;> rfl
@[simp] theorem State.setPointer_seg (s : State) (r v : Nat) : (s.setPointer r v).seg = s.seg := by
  unfold State.setPointer; split <;> rfl
@[simp] theorem State.setPointer_segs (s : State) (r v : Nat) : (s.setPointer r v).segs = s.segs := by
  unfold State.setPointer; split <;> rfl
@[simp] theorem State.setPointer_queue (s : State) (r v : Nat) : (s.setPointer r v).queue = s.queue := by
  unfold State.setPointer; split <;> rfl
@[simp] theorem State.setPointer_mem (s : State) (r v : Nat) : (s.setPointer r v).mem = s.mem := by
  unfold State.setPointer; split <;> rfl
@[simp] theorem State.setPointer_alatch (s : State) (r v : Nat) : (s.setPointer r v).alatch = s.alatch := by
  unfold State.setPointer; split <;> rfl
@[simp] theorem State.setPointer_dlatch (s : State) (r v : Nat) : (s.setPointer r v).dlatch = s.dlatch := by
  unfold State.setPointer; split <;> rfl
@[simp] theorem State.setPointer_ctrl (s : State) (r v : Nat) : (s.setPointer r v).ctrl = s.ctrl := by
  unfold State.setPointer; split <;> rfl
@[simp] theorem State.setPointer_biu (s : State) (r v : Nat) : (s.setPointer r v).biu = s.biu := by
  unfold State.setPointer; split <;> rfl
@[simp] theorem State.setPointer_fault (s : State) (r v : Nat) : (s.setPointer r v).fault = s.fault := by
  unfold State.setPointer; split <;> rfl
@[simp] theorem State.setPointer_stream (s : State) (r v : Nat) : (s.setPointer r v).stream = s.stream := by
  unfold State.setPointer; split <;> rfl
@[simp] theorem State.setPointer_result (s : State) (r v : Nat) : (s.setPointer r v).result = s.result := by
  unfold State.setPointer; split <;> rfl

@[simp] theorem State.setSegment_cfg (s : State) (r v : Nat) : (s.setSegment r v).cfg = s.cfg := by
  unfold State.setSegment; split <;> rfl
@[simp] theorem State.setSegment_ip (s : State) (r v : Nat) : (s.setSegment r v).ip = s.ip := by
  unfold State.setSegment; split <;> rfl
@[simp] theorem State.setSegment_p (s : State) (r v : Nat) : (s.setSegment r v).p = s.p := by
  unfold State.setSegment; split <;> rfl
@[simp] theorem State.setSegment_queue (s : State) (r v : Nat) : (s.setSegment r v).queue = s.queue := by
  unfold State.setSegment; split <;> rfl
@[simp] theorem State.setSegment_mem (s : State) (r v : Nat) : (s.setSegment r v).mem = s.mem := by
  unfold State.setSegment; split <;> rfl
@[simp] theorem State.setSegment_alatch (s : State) (r v : Nat) : (s.setSegment r v).alatch = s.alatch := by
  unfold State.setSegment; split <;> rfl
@[simp] theorem State.setSegment_dlatch (s : State) (r v : Nat) : (s.setSegment r v).dlatch = s.dlatch := by
  unfold State.setSegment; split <;> rfl
@[simp] theorem State.setSegment_ctrl (s : State) (r v : Nat) : (s.setSegment r v).ctrl = s.ctrl := by
  unfold State.setSegment; split <;> rfl
@[simp] theorem State.setSegment_biu (s : State) (r v : Nat) : (s.setSegment r v).biu = s.biu := by
  unfold State.setSegment; split <;> rfl
@[simp] theorem State.setSegment_fault (s : State) (r v : Nat) : (s.setSegment r v).fault = s.fault := by
  unfold State.setSegment; split <;> rfl
@[simp] theorem State.setSegment_stream (s : State) (r v : Nat) : (s.setSegment r v).stream = s.stream := by
  unfold State.setSegment; split <;> rfl
@[simp] theorem State.setSegment_result (s : State) (r v : Nat) : (s.setSegment r v).result = s.result := by
  unfold State.setSegment; split <;> rfl

@[simp] theorem State.memWrite_cfg (s : State) (a n v : Nat) :
    (s.memWrite a n v).cfg = s.cfg := rfl
@[simp] theorem State.memWrite_ip (s : State) (a n v : Nat) :
    (s.memWrite a n v).ip = s.ip := rfl
@[simp] theorem State.memWrite_seg (s : State) (a n v : Nat) :
    (s.memWrite a n v).seg = s.seg := rfl
@[simp] theorem State.memWrite_p (s : State) (a n v : Nat) :
    (s.memWrite a n v).p = s.p := rfl
@[simp] theorem State.memWrite_segs (s : State) (a n v : Nat) :
    (s.memWrite a n v).segs = s.segs := rfl
@[simp] theorem State.memWrite_queue (s : State) (a n v : Nat) :
    (s.memWrite a n v).queue = s.queue := rfl
@[simp] theorem State.memWrite_mem (s : State) (a n v : Nat) :
    (s.memWrite a n v).mem = Memory.putBytes s.mem a (littleEndian n v) := rfl
@[simp] theorem State.memWrite_alatch (s : State) (a n v : Nat) :
    (s.memWrite a n v).alatch = s.alatch := rfl
@[simp] theorem State.memWrite_dlatch (s : State) (a n v : Nat) :
    (s.memWrite a n v).dlatch = s.dlatch := rfl
@[simp] theorem State.memWrite_ctrl (s : State) (a n v : Nat) :
    (s.memWrite a n v).ctrl = s.ctrl := rfl
@[simp] theorem State.memWrite_biu (s : State) (a n v : Nat) :
    (s.memWrite a n v).biu = s.biu := rfl
@[simp] theorem State.memWrite_fault (s : State) (a n v : Nat) :
    (s.memWrite a n v).fault = s.fault := rfl
@[simp] theorem State.memWrite_stream (s : State) (a n v : Nat) :
    (s.memWrite a n v).stream = s.stream := rfl
@[simp] theorem State.memWrite_result (s : State) (a n v : Nat) :
    (s.memWrite a n v).result = s.result := rfl

end Sys2Proof.Machine
end

