-- ==== Sys2Proof/Laws/Memory.lean ====
section
/-! SUPPORT. The raw buffer's laws: a read after a write, what a write leaves alone, and the canonical form
that every memory operation keeps. -/

namespace Sys2Proof.Machine

theorem Memory.get_put_same (m : Memory) (a : Nat) (b : Byte) : Memory.get (Memory.put m a b) a = some b := by
  induction m with
  | nil => simp [Memory.put, Memory.get]
  | cons cell m ih =>
    obtain ⟨k, x⟩ := cell
    simp only [Memory.put]
    split
    · simp [Memory.get]
    · split
      · simp [Memory.get]
      · rename_i h
        simp [Memory.get, ih, Ne.symm h]

theorem Memory.get_put_other (m : Memory) {a c : Nat} (b : Byte) (h : c ≠ a) :
    Memory.get (Memory.put m a b) c = Memory.get m c := by
  induction m with
  | nil => simp [Memory.put, Memory.get, Ne.symm h]
  | cons cell m ih =>
    obtain ⟨k, x⟩ := cell
    simp only [Memory.put]
    split
    · simp [Memory.get, Ne.symm h]
    · split
      · rename_i hk
        subst hk
        simp [Memory.get, Ne.symm h]
      · simp [Memory.get, ih]

theorem Memory.get_put (m : Memory) (a c : Nat) (b : Byte) :
    Memory.get (Memory.put m a b) c = if c = a then some b else Memory.get m c := by
  split
  · rename_i h; subst h; exact Memory.get_put_same m c b
  · rename_i h; exact Memory.get_put_other m b h

theorem Memory.get_putBytes (bs : List Byte) (m : Memory) (a c : Nat) :
    Memory.get (Memory.putBytes m a bs) c =
      if a ≤ c ∧ c < a + bs.length then bs[c - a]? else Memory.get m c := by
  induction bs generalizing m a with
  | nil =>
    rw [if_neg (by simp)]
    rfl
  | cons b bs ih =>
    simp only [Memory.putBytes, ih, Memory.get_put, List.length_cons]
    by_cases h1 : c = a
    · subst h1
      rw [if_neg (by omega), if_pos rfl, if_pos (by omega)]
      simp
    · by_cases h2 : a + 1 ≤ c ∧ c < a + 1 + bs.length
      · rw [if_pos h2, if_pos (by omega), show c - a = (c - (a + 1)) + 1 by omega, List.getElem?_cons_succ]
      · rw [if_neg h2, if_neg h1, if_neg (by omega)]

/-- Bytes written, then read back. -/
theorem littleEndian_length (n v : Nat) : (littleEndian n v).length = n := by
  induction n generalizing v with
  | zero => rfl
  | succ n ih => simp [littleEndian, ih]

theorem littleEndian_getElem? (n v i : Nat) (h : i < n) :
    (littleEndian n v)[i]? = some (BitVec.ofNat 8 (v / 256 ^ i)) := by
  induction n generalizing v i with
  | zero => omega
  | succ n ih =>
    cases i with
    | zero => simp [littleEndian]
    | succ i =>
      simp only [littleEndian, List.getElem?_cons_succ]
      rw [ih (v / 256) i (by omega), Nat.div_div_eq_div_mul, Nat.pow_succ, Nat.mul_comm]

/-- MemWrite says of every byte of the buffer what it reads as afterwards (20_memory.md R63). -/
theorem State.byteAt_memWrite (s : State) (a n v c : Nat) :
    (s.memWrite a n v).byteAt c =
      if a ≤ c ∧ c < a + n then BitVec.ofNat 8 (v / 256 ^ (c - a)) else s.byteAt c := by
  simp only [State.byteAt, State.memWrite_mem, State.memWrite_cfg, Memory.get_putBytes, littleEndian_length]
  by_cases h : a ≤ c ∧ c < a + n
  · rw [if_pos h, if_pos h, littleEndian_getElem? n v (c - a) (by omega)]
    rfl
  · rw [if_neg h, if_neg h]

/-- MemRead looks at its own bytes only (20_memory.md R62). -/
theorem State.memRead_congr {s t : State} {a n : Nat}
    (h : ∀ i < n, s.byteAt (a + i) = t.byteAt (a + i)) : s.memRead a n = t.memRead a n := by
  induction n generalizing a with
  | zero => rfl
  | succ n ih =>
    simp only [State.memRead]
    have h0 := h 0 (by omega)
    simp only [Nat.add_zero] at h0
    rw [h0, ih]
    intro i hi
    have := h (i + 1) (by omega)
    rwa [show a + (i + 1) = a + 1 + i by omega] at this

/-- A word of `n` bytes is below 2^(8n) (20_memory.md R62). -/
theorem State.memRead_lt (s : State) (a n : Nat) : s.memRead a n < 2 ^ (8 * n) := by
  induction n generalizing a with
  | zero => simp [State.memRead]
  | succ n ih =>
    have h1 := ih (a + 1)
    have h2 := (s.byteAt a).isLt
    have h3 : 2 ^ (8 * (n + 1)) = 256 * 2 ^ (8 * n) := by
      rw [Nat.mul_add, Nat.pow_add]; omega
    simp only [State.memRead]
    omega

/-- A byte is a function of the configuration and the written bytes alone. -/
theorem State.byteAt_of_eq {s t : State} (hc : t.cfg = s.cfg) (hm : t.mem = s.mem) (a : Nat) :
    t.byteAt a = s.byteAt a := by
  simp only [State.byteAt, hc, hm]

/-! ### The canonical form -/

theorem Memory.risesAbove_some_of_lt {m : Memory} {j k : Nat} (hjk : j ≤ k)
    (h : Memory.risesAbove (some k) m = true) : Memory.risesAbove (some j) m = true := by
  cases m with
  | nil => rfl
  | cons cell m =>
    obtain ⟨a, b⟩ := cell
    simp only [Memory.risesAbove, Bool.and_eq_true, decide_eq_true_eq] at h ⊢
    exact ⟨by omega, h.2⟩

theorem Memory.risesAbove_put {m : Memory} {k a : Nat} (b : Byte) (hk : k < a)
    (h : Memory.risesAbove (some k) m = true) : Memory.risesAbove (some k) (Memory.put m a b) = true := by
  induction m generalizing k with
  | nil => simp [Memory.put, Memory.risesAbove, hk]
  | cons cell m ih =>
    obtain ⟨j, x⟩ := cell
    simp only [Memory.risesAbove, Bool.and_eq_true, decide_eq_true_eq] at h
    simp only [Memory.put]
    split
    · rename_i haj
      simp [Memory.risesAbove, hk, haj, h.2]
    · split
      · rename_i haj
        subst haj
        simp [Memory.risesAbove, hk, h.2]
      · have hj : j < a := by omega
        simp [Memory.risesAbove, h.1, ih hj h.2]

/-- Writing a byte keeps the canonical form. -/
theorem Memory.wf_put {m : Memory} (a : Nat) (b : Byte) (h : Memory.wf m = true) :
    Memory.wf (Memory.put m a b) = true := by
  cases m with
  | nil => rfl
  | cons cell m =>
    obtain ⟨j, x⟩ := cell
    simp only [Memory.wf, Memory.risesAbove] at h
    simp only [Memory.put]
    split
    · rename_i haj
      simp [Memory.wf, Memory.risesAbove, haj, h]
    · split
      · rename_i haj
        subst haj
        simp [Memory.wf, Memory.risesAbove, h]
      · exact Memory.risesAbove_put b (by omega) h

/-- Writing bytes keeps the canonical form. -/
theorem Memory.wf_putBytes (bs : List Byte) {m : Memory} (a : Nat) (h : Memory.wf m = true) :
    Memory.wf (Memory.putBytes m a bs) = true := by
  induction bs generalizing m a with
  | nil => exact h
  | cons b bs ih => exact ih (a + 1) (Memory.wf_put a b h)

/-- MemWrite keeps the canonical form. -/
theorem State.memWrite_wf (s : State) (a n v : Nat) (h : Memory.wf s.mem = true) :
    Memory.wf (s.memWrite a n v).mem = true := Memory.wf_putBytes _ a h

/-- The memory of a newly constructed machine is in its canonical form. -/
theorem State.initial_mem_wf (c : Config) : Memory.wf (State.initial c).mem = true := rfl

/-- The reset memory is in its canonical form. -/
theorem State.reset_mem_wf : Memory.wf State.reset.mem = true := rfl

theorem Memory.get_eq_none_of_risesAbove {m : Memory} {k c : Nat} (hc : c ≤ k)
    (h : Memory.risesAbove (some k) m = true) : Memory.get m c = none := by
  induction m generalizing k with
  | nil => rfl
  | cons cell m ih =>
    obtain ⟨j, x⟩ := cell
    simp only [Memory.risesAbove, Bool.and_eq_true, decide_eq_true_eq] at h
    simp only [Memory.get, if_neg (show j ≠ c by omega)]
    exact ih (by omega) h.2

/-- Two canonical memories that hold the same written bytes are equal data. -/
theorem Memory.ext_of_wf {m m' : Memory} (h : Memory.wf m = true) (h' : Memory.wf m' = true)
    (hget : ∀ a, Memory.get m a = Memory.get m' a) : m = m' := by
  induction m generalizing m' with
  | nil =>
    cases m' with
    | nil => rfl
    | cons cell m' => have := hget cell.1; simp [Memory.get, Memory.unlisted] at this
  | cons cell m ih =>
    obtain ⟨k, x⟩ := cell
    simp only [Memory.wf, Memory.risesAbove] at h
    cases m' with
    | nil => have := hget k; simp [Memory.get, Memory.unlisted] at this
    | cons cell' m' =>
      obtain ⟨k', x'⟩ := cell'
      simp only [Memory.wf, Memory.risesAbove] at h'
      have hk : k = k' := by
        rcases Nat.lt_trichotomy k k' with hlt | heq | hgt
        · have h1 := hget k
          simp only [Memory.get, if_true, if_neg (show k' ≠ k by omega),
            Memory.get_eq_none_of_risesAbove (Nat.le_of_lt hlt) h'] at h1
          cases h1
        · exact heq
        · have h1 := hget k'
          simp only [Memory.get, if_true, if_neg (show k ≠ k' by omega),
            Memory.get_eq_none_of_risesAbove (Nat.le_of_lt hgt) h] at h1
          cases h1
      subst hk
      have hx : x = x' := by
        have h1 := hget k
        simpa [Memory.get] using h1
      subst hx
      have hwf : ∀ {n : Memory}, Memory.risesAbove (some k) n = true → Memory.wf n = true := by
        intro n hn
        cases n with
        | nil => rfl
        | cons c n =>
          obtain ⟨j, y⟩ := c
          simp only [Memory.risesAbove, Bool.and_eq_true] at hn
          exact hn.2
      have htail : m = m' := by
        refine ih (hwf h) (hwf h') (fun a => ?_)
        by_cases ha : k = a
        · subst ha
          rw [Memory.get_eq_none_of_risesAbove (Nat.le_refl k) h,
            Memory.get_eq_none_of_risesAbove (Nat.le_refl k) h']
        · have h1 := hget a
          simpa [Memory.get, ha] using h1
      rw [htail]

theorem Memory.mem_put {m : Memory} {a : Nat} {b : Byte} {cell : Host.Cell}
    (h : cell ∈ Memory.put m a b) : cell = (a, b) ∨ cell ∈ m := by
  induction m with
  | nil => simpa [Memory.put] using h
  | cons c m ih =>
    obtain ⟨k, x⟩ := c
    simp only [Memory.put] at h
    split at h
    · simpa using h
    · split at h
      · simp only [List.mem_cons] at h ⊢
        tauto
      · simp only [List.mem_cons] at h ⊢
        rcases h with h | h
        · exact Or.inr (Or.inl h)
        · rcases ih h with h | h
          · exact Or.inl h
          · exact Or.inr (Or.inr h)

/-- A cell of the memory after a write was there before or lies in the written range. -/
theorem Memory.mem_putBytes {bs : List Byte} {m : Memory} {a : Nat} {cell : Host.Cell}
    (h : cell ∈ Memory.putBytes m a bs) : (a ≤ cell.1 ∧ cell.1 < a + bs.length) ∨ cell ∈ m := by
  induction bs generalizing m a with
  | nil => exact Or.inr h
  | cons b bs ih =>
    simp only [Memory.putBytes] at h
    rcases ih h with h | h
    · exact Or.inl (by simp only [List.length_cons]; omega)
    · rcases Memory.mem_put h with h | h
      · subst h
        exact Or.inl (by simp only [List.length_cons]; omega)
      · exact Or.inr h

end Sys2Proof.Machine
end

