-- ==== Sys2Proof/Laws/Ops.lean ====
section
/-! SUPPORT. The shared operations, each with everything it can do: how a command ends, the read response,
the drives, the queue and the store. -/

namespace Sys2Proof.Machine

/-! ### Ends of a command -/

theorem issue_running {s : State} (h : s.fault = none) (body : Outcome) : issue s body = body := by
  simp [issue, h]

theorem issue_halted {s : State} {f : CoreFault} (h : s.fault = some f) (body : Outcome) :
    issue s body = .next (s.setResult (.fault f)) := by
  simp [issue, h, ret]

/-- A command issued to a machine either finds it halted and answers its fault, or runs. -/
theorem issue_next {s t : State} {body : Outcome} (h : issue s body = .next t) :
    (∃ f, s.fault = some f ∧ t = s.setResult (.fault f)) ∨ (s.fault = none ∧ body = .next t) := by
  cases hf : s.fault with
  | none => exact .inr ⟨rfl, by rwa [issue_running hf] at h⟩
  | some f =>
    rw [issue_halted hf] at h
    exact .inl ⟨f, rfl, (Host.Outcome.next.inj h).symm⟩

theorem ret_next {r : Result} {s t : State} (h : ret r s = .next t) : t = s.setResult r :=
  (Host.Outcome.next.inj h).symm

theorem raise_next {f : CoreFault} {s t : State} (h : raise f s = .next t) :
    t = (s.setFault f).setResult (.fault f) :=
  (Host.Outcome.next.inj h).symm

/-! ### Register numbers -/

theorem regOfNumber_ip (c : Config) (r : Nat) : regOfNumber c r = some .ip ↔ r = 0 := by
  unfold regOfNumber
  split
  · simp_all
  · split
    · simp_all
    · split
      · simp_all
      · split <;> simp_all

theorem setPointer_ip_or (s : State) (r v : Nat) :
    (s.setPointer r v).ip = s.ip ∨ (r = 0 ∧ (s.setPointer r v).ip = v) := by
  unfold State.setPointer
  split
  · rename_i h
    exact .inr ⟨(regOfNumber_ip _ _).1 h, rfl⟩
  · exact .inl rfl
  · exact .inl rfl

/-! ### The read response -/

/-- With no address driven Memory does not answer (43_memory_ops.md R184). -/
theorem memoryReadResponse_silent {s : State} (h : s.alatch = none) :
    memoryReadResponse s = .completed s none := by
  simp [memoryReadResponse, h]

/-- The decoder's range check (43_memory_ops.md R184). -/
theorem memoryReadResponse_outOfRange {s : State} {a : Nat} (h : s.alatch = some a)
    (ha : s.cfg.numberOfChips ≤ a) : memoryReadResponse s = .raised s (.indexError a) := by
  simp [memoryReadResponse, h, ha]

/-- The answer: the word at `A & MASK` on the data bus (43_memory_ops.md R184). -/
theorem memoryReadResponse_answers {s : State} {a : Nat} (h : s.alatch = some a)
    (ha : a < s.cfg.numberOfChips)
    (hb : internalAddress s.cfg a + s.cfg.wordBytes ≤ s.cfg.totalBytes) :
    memoryReadResponse s =
      .completed (s.setDlatch (s.memRead (internalAddress s.cfg a) s.cfg.wordBytes))
        (if s.biu = .readSignaled then some (s.memRead (internalAddress s.cfg a) s.cfg.wordBytes) else none) := by
  simp only [memoryReadResponse, h, chipSelection_eq, driveData]
  rw [if_neg (by omega), if_neg (by omega)]

/-- Everything the read response can do. -/
theorem memoryReadResponse_cases (s : State) :
    (s.alatch = none ∧ memoryReadResponse s = .completed s none) ∨
    ∃ a, s.alatch = some a ∧
      ((s.cfg.numberOfChips ≤ a ∧ memoryReadResponse s = .raised s (.indexError a)) ∨
       (a < s.cfg.numberOfChips ∧ s.cfg.totalBytes < internalAddress s.cfg a + s.cfg.wordBytes ∧
          memoryReadResponse s = .undefinedRead (internalAddress s.cfg a)) ∨
       (a < s.cfg.numberOfChips ∧ internalAddress s.cfg a + s.cfg.wordBytes ≤ s.cfg.totalBytes ∧
          memoryReadResponse s =
            .completed (s.setDlatch (s.memRead (internalAddress s.cfg a) s.cfg.wordBytes))
              (if s.biu = .readSignaled
                then some (s.memRead (internalAddress s.cfg a) s.cfg.wordBytes) else none))) := by
  cases h : s.alatch with
  | none => exact .inl ⟨rfl, memoryReadResponse_silent h⟩
  | some a =>
    refine .inr ⟨a, rfl, ?_⟩
    by_cases ha : s.cfg.numberOfChips ≤ a
    · exact .inl ⟨ha, memoryReadResponse_outOfRange h ha⟩
    · have ha' : a < s.cfg.numberOfChips := by omega
      by_cases hb : s.cfg.totalBytes < internalAddress s.cfg a + s.cfg.wordBytes
      · refine .inr (.inl ⟨ha', hb, ?_⟩)
        simp only [memoryReadResponse, h, chipSelection_eq]
        rw [if_neg ha, if_pos hb]
      · exact .inr (.inr ⟨ha', by omega, memoryReadResponse_answers h ha' (by omega)⟩)

/-- MemRead does not look at the latches, the registers or the bus-interface unit. -/
theorem State.memRead_of_eq {s t : State} (hc : t.cfg = s.cfg) (hm : t.mem = s.mem) (a n : Nat) :
    t.memRead a n = s.memRead a n :=
  State.memRead_congr fun _ _ => State.byteAt_of_eq hc hm _

@[simp] theorem State.memRead_setAlatch (s : State) (x a n : Nat) :
    (s.setAlatch x).memRead a n = s.memRead a n :=
  State.memRead_of_eq (s := s) (t := s.setAlatch x) rfl rfl a n

@[simp] theorem State.memRead_setBiu (s : State) (ph : BiuPhase) (a n : Nat) :
    (s.setBiu ph).memRead a n = s.memRead a n :=
  State.memRead_of_eq (s := s) (t := s.setBiu ph) rfl rfl a n

@[simp] theorem State.memRead_setControl (s : State) (line : Signal) (v : Bool) (a n : Nat) :
    (s.setControl line v).memRead a n = s.memRead a n :=
  State.memRead_of_eq (State.setControl_cfg s line v) (State.setControl_mem s line v) a n

/-- A line other than READ, or READ driven false, has no listener (40_bus.md R123). -/
theorem driveControl_unheard {s : State} {line : Signal} {v : Bool} (h : line ≠ .read ∨ v = false) :
    driveControl s line v = .completed (s.setControl line v) none := by
  cases line <;> cases v <;> simp_all [driveControl]

theorem driveControl_read (s : State) :
    driveControl s .read true = memoryReadResponse (s.setControl .read true) := rfl

/-! ### Signal names -/

theorem signalOfName_read : signalOfName .x86 readName = some .read := by decide
theorem signalOfName_write : signalOfName .x86 writeName = some .write := by decide
theorem signalOfName_memoryIo : signalOfName .x86 memoryIoName = some .memoryIo := by decide

/-- A name of the X86 table is one of the three, exactly (10_state.md R23). -/
theorem signalOfName_eq_none_iff (name : Name) :
    signalOfName .x86 name = none ↔ name ∉ [readName, writeName, memoryIoName] := by
  simp only [signalOfName, signalTable, List.lookup_eq_none_iff]
  simp

/-- The line a name stands for has that name (10_state.md R23). -/
theorem name_of_signalOfName {a : Arch} {name : Name} {line : Signal} (h : signalOfName a name = some line) :
    a = .x86 ∧ ((line = .read ∧ name = readName) ∨ (line = .write ∧ name = writeName) ∨
      (line = .memoryIo ∧ name = memoryIoName)) := by
  cases a with
  | other n => simp [signalOfName, signalTable] at h
  | x86 =>
    refine ⟨rfl, ?_⟩
    simp only [signalOfName, signalTable, List.lookup] at h
    repeat' split at h
    all_goals simp_all

/-! ### Bits -/

theorem bitOfByte_zero : bitOfByte 0 = some false := rfl
theorem bitOfByte_one : bitOfByte 1 = some true := rfl

theorem bitOfByte_eq_none_iff (b : Byte) : bitOfByte b = none ↔ b ≠ 0 ∧ b ≠ 1 := by
  unfold bitOfByte
  split
  · simp_all
  · split <;> simp_all

theorem bitOfByte_of_bit {b : Byte} (h : b = 0 ∨ b = 1) : bitOfByte b = some (b == 1) := by
  rcases h with rfl | rfl <;> rfl

/-! ### Queue and store -/

theorem enqueue_room {s : State} (h : s.queue.length < Config.queueCapacity) (w : Nat) :
    enqueue s w = s.setQueue (s.queue ++ [w]) := by
  simp [enqueue, State.hasRoom, h]

theorem enqueue_full {s : State} (h : Config.queueCapacity ≤ s.queue.length) (w : Nat) : enqueue s w = s := by
  simp [enqueue, State.hasRoom, Nat.not_lt.2 h]

/-- An enqueue changes the queue alone, and only by a word at its tail when there is room (10_state.md R41). -/
theorem enqueue_eq (s : State) (w : Nat) :
    enqueue s w = s.setQueue (if s.queue.length < Config.queueCapacity then s.queue ++ [w] else s.queue) := by
  by_cases h : s.queue.length < Config.queueCapacity
  · rw [enqueue_room h, if_pos h]
  · rw [enqueue_full (by omega), if_neg h]
    rfl

/-- Everything the checked store can do (43_memory_ops.md R180). -/
theorem storeWord_cases (s : State) (a v : Int) :
    ((a < 0 ∨ (s.cfg.totalBytes : Int) < a + s.cfg.wordBytes) ∧
        storeWord s a v = raise (.bufferBoundsFault a) s) ∨
    (0 ≤ a ∧ a + s.cfg.wordBytes ≤ s.cfg.totalBytes ∧ (v < 0 ∨ (2 ^ s.cfg.wordBits : Int) ≤ v) ∧
        storeWord s a v = raise (.valueWidthFault v) s) ∨
    (0 ≤ a ∧ a + s.cfg.wordBytes ≤ s.cfg.totalBytes ∧ 0 ≤ v ∧ v < (2 ^ s.cfg.wordBits : Int) ∧
        storeWord s a v = ret .unit (s.memWrite a.toNat s.cfg.wordBytes v.toNat)) := by
  unfold storeWord
  by_cases hb : WordInBuffer s.cfg a
  · rw [if_neg (not_not.2 hb)]
    by_cases hv : FitsWord s.cfg v
    · rw [if_neg (not_not.2 hv)]
      exact .inr (.inr ⟨hb.1, hb.2, hv.1, by simpa using hv.2, rfl⟩)
    · rw [if_pos hv]
      refine .inr (.inl ⟨hb.1, hb.2, ?_, rfl⟩)
      push_cast [FitsWord] at hv
      omega
  · rw [if_pos hb]
    exact .inl ⟨by simp only [WordInBuffer] at hb; omega, rfl⟩

end Sys2Proof.Machine
end

