-- ==== Sys2Proof/Laws/Exec.lean ====
section
/-! SUPPORT. What CTRL_SEND and FETCH can do, said once, and what a halted machine does with any command. The
invariants cite these and unfold neither. -/

namespace Sys2Proof.Machine

/-- A halted machine answers any command with its fault (60_exceptions.md R231). -/
theorem exec_halted (i : Instr) {s : State} {f : CoreFault} (h : s.fault = some f) :
    exec i s = .next (s.setResult (.fault f)) := by
  cases i <;> exact issue_halted h _

/-! ### The read cycle of a FETCH -/

@[simp] theorem beginFetch_cfg (s : State) : (beginFetch s).cfg = s.cfg := rfl
@[simp] theorem beginFetch_ip (s : State) : (beginFetch s).ip = s.ip := rfl
@[simp] theorem beginFetch_seg (s : State) : (beginFetch s).seg = s.seg := rfl
@[simp] theorem beginFetch_p (s : State) : (beginFetch s).p = s.p := rfl
@[simp] theorem beginFetch_segs (s : State) : (beginFetch s).segs = s.segs := rfl
@[simp] theorem beginFetch_queue (s : State) : (beginFetch s).queue = s.queue := rfl
@[simp] theorem beginFetch_mem (s : State) : (beginFetch s).mem = s.mem := rfl
@[simp] theorem beginFetch_alatch (s : State) : (beginFetch s).alatch = some (physicalAddress s) := rfl
@[simp] theorem beginFetch_dlatch (s : State) : (beginFetch s).dlatch = s.dlatch := rfl
@[simp] theorem beginFetch_ctrl (s : State) : (beginFetch s).ctrl = s.ctrl := rfl
@[simp] theorem beginFetch_biu (s : State) : (beginFetch s).biu = .readSignaled := rfl
@[simp] theorem beginFetch_fault (s : State) : (beginFetch s).fault = s.fault := rfl
@[simp] theorem beginFetch_stream (s : State) : (beginFetch s).stream = s.stream := rfl
@[simp] theorem beginFetch_result (s : State) : (beginFetch s).result = s.result := rfl

@[simp] theorem beginFetch_memRead (s : State) (a n : Nat) : (beginFetch s).memRead a n = s.memRead a n :=
  State.memRead_of_eq (s := s) (t := beginFetch s) rfl rfl a n

/-- A FETCH whose READ has been driven, field by field: what an `IndexError` leaves (44_cpu.md R201). -/
theorem beginFetch_setControl_eq (s : State) :
    (beginFetch s).setControl .read true = { s with
      alatch := some (physicalAddress s), ctrl := { s.ctrl with read := some true }, biu := .readSignaled } := by
  simp only [beginFetch, driveAddress, State.setBiu, State.setControl, State.setAlatch]

/-- The word a FETCH reads (44_cpu.md R201). -/
def fetchedWord (s : State) : Nat :=
  s.memRead (internalAddress s.cfg (physicalAddress s)) s.cfg.wordBytes

/-- A FETCH once Memory has answered: the word is on the data bus and captured. -/
def answeredFetch (s : State) : State :=
  ((beginFetch s).setControl .read true).setDlatch (fetchedWord s)

/-- How the READ drive of a FETCH ends. -/
theorem driveNamed_beginFetch (s : State) :
    (s.cfg.arch ≠ .x86 ∧
      driveNamed (beginFetch s) readName true = .raised (beginFetch s) (.invalidSignalError readName)) ∨
    (s.cfg.arch = .x86 ∧ s.cfg.numberOfChips ≤ physicalAddress s ∧
      driveNamed (beginFetch s) readName true =
        .raised ((beginFetch s).setControl .read true) (.indexError (physicalAddress s))) ∨
    (s.cfg.arch = .x86 ∧ physicalAddress s < s.cfg.numberOfChips ∧
      s.cfg.totalBytes < internalAddress s.cfg (physicalAddress s) + s.cfg.wordBytes ∧
      driveNamed (beginFetch s) readName true =
        .undefinedRead (internalAddress s.cfg (physicalAddress s))) ∨
    (s.cfg.arch = .x86 ∧ physicalAddress s < s.cfg.numberOfChips ∧
      internalAddress s.cfg (physicalAddress s) + s.cfg.wordBytes ≤ s.cfg.totalBytes ∧
      driveNamed (beginFetch s) readName true = .completed (answeredFetch s) (some (fetchedWord s))) := by
  cases ha : s.cfg.arch with
  | other n => exact .inl ⟨by simp, by simp [driveNamed, ha, signalOfName, signalTable]⟩
  | x86 =>
    refine .inr ?_
    have hd : driveNamed (beginFetch s) readName true =
        memoryReadResponse ((beginFetch s).setControl .read true) := by
      simp only [driveNamed, beginFetch_cfg, ha, signalOfName_read, driveControl_read]
    rw [hd]
    rcases memoryReadResponse_cases ((beginFetch s).setControl .read true) with ⟨hn, _⟩ | ⟨a, hal, hcase⟩
    · simp at hn
    · have haa : physicalAddress s = a := by simpa using hal
      subst haa
      simp only [State.setControl_cfg, beginFetch_cfg, State.setControl_biu, beginFetch_biu,
        State.memRead_setControl, beginFetch_memRead, if_true] at hcase
      rcases hcase with ⟨hN, heq⟩ | ⟨hN, hb, heq⟩ | ⟨hN, hb, heq⟩
      · exact .inl ⟨rfl, hN, heq⟩
      · exact .inr (.inl ⟨rfl, hN, hb, heq⟩)
      · exact .inr (.inr ⟨rfl, hN, hb, heq⟩)

/-- The state of a FETCH whose word has been enqueued or dropped, before IP moves (44_cpu.md R201). -/
def queuedFetch (s : State) : State :=
  (enqueue ((answeredFetch s).setBiu .awaitingData) (fetchedWord s)).setBiu .dequeueReady

/-- What a FETCH has done by then, field by field. -/
theorem queuedFetch_eq (s : State) :
    queuedFetch s = { s with
      alatch := some (physicalAddress s), dlatch := some (fetchedWord s),
      ctrl := { s.ctrl with read := some true },
      queue := if s.queue.length < Config.queueCapacity then s.queue ++ [fetchedWord s] else s.queue,
      biu := .dequeueReady } := by
  simp only [queuedFetch, enqueue_eq, answeredFetch, beginFetch, driveAddress, State.setBiu, State.setQueue,
    State.setDlatch, State.setControl, State.setAlatch]

/-- The end of a FETCH whose word arrived. -/
theorem endFetch_answered (s : State) :
    endFetch (.completed (answeredFetch s) (some (fetchedWord s))) =
      if s.cfg.mode.maxOffset < s.ip + 1 then raise (.offsetRangeError (s.ip + 1 : Nat)) (queuedFetch s)
      else ret (.status s.hasRoom) (((queuedFetch s).setIp (s.ip + 1)).setBiu .idle) := rfl

/-- Everything a FETCH of a running machine can do (44_cpu.md R201). -/
theorem execFetch_cases {s : State} (hf : s.fault = none) :
    (s.cfg.mode ≠ .realMode ∧ execFetch s = raise (.modeNotSupported s.cfg.mode) s) ∨
    (s.cfg.mode = .realMode ∧ s.cfg.arch ≠ .x86 ∧
      execFetch s = raise (.invalidSignalError readName) (beginFetch s)) ∨
    (s.cfg.mode = .realMode ∧ s.cfg.arch = .x86 ∧ s.cfg.numberOfChips ≤ physicalAddress s ∧
      execFetch s = raise (.indexError (physicalAddress s)) ((beginFetch s).setControl .read true)) ∨
    (s.cfg.mode = .realMode ∧ s.cfg.arch = .x86 ∧ physicalAddress s < s.cfg.numberOfChips ∧
      s.cfg.totalBytes < internalAddress s.cfg (physicalAddress s) + s.cfg.wordBytes ∧
      execFetch s = .fault (.outsideBuffer (internalAddress s.cfg (physicalAddress s)))) ∨
    (s.cfg.mode = .realMode ∧ s.cfg.arch = .x86 ∧ physicalAddress s < s.cfg.numberOfChips ∧
      internalAddress s.cfg (physicalAddress s) + s.cfg.wordBytes ≤ s.cfg.totalBytes ∧
      s.cfg.mode.maxOffset < s.ip + 1 ∧
      execFetch s = raise (.offsetRangeError (s.ip + 1 : Nat)) (queuedFetch s)) ∨
    (s.cfg.mode = .realMode ∧ s.cfg.arch = .x86 ∧ physicalAddress s < s.cfg.numberOfChips ∧
      internalAddress s.cfg (physicalAddress s) + s.cfg.wordBytes ≤ s.cfg.totalBytes ∧
      s.ip + 1 ≤ s.cfg.mode.maxOffset ∧
      execFetch s = ret (.status s.hasRoom) (((queuedFetch s).setIp (s.ip + 1)).setBiu .idle)) := by
  unfold execFetch
  rw [issue_running hf]
  by_cases hm : s.cfg.mode = .realMode
  · rw [if_neg (not_not.2 hm)]
    refine .inr ?_
    rcases driveNamed_beginFetch s with ⟨ha, heq⟩ | ⟨ha, hN, heq⟩ | ⟨ha, hN, hb, heq⟩ | ⟨ha, hN, hb, heq⟩
    · exact .inl ⟨hm, ha, by rw [heq]; rfl⟩
    · exact .inr (.inl ⟨hm, ha, hN, by rw [heq]; rfl⟩)
    · exact .inr (.inr (.inl ⟨hm, ha, hN, hb, by rw [heq]; rfl⟩))
    · rw [heq, endFetch_answered]
      by_cases hip : s.cfg.mode.maxOffset < s.ip + 1
      · exact .inr (.inr (.inr (.inl ⟨hm, ha, hN, hb, hip, by rw [if_pos hip]⟩)))
      · exact .inr (.inr (.inr (.inr ⟨hm, ha, hN, hb, by omega, by rw [if_neg hip]⟩)))
  · exact .inl ⟨hm, by rw [if_pos hm]⟩

/-! ### CTRL_SEND -/

/-- Everything a CTRL_SEND of a running machine can do (40_bus.md R122). -/
theorem execCtrlSend_cases {s : State} (hf : s.fault = none) (name : Name) (v : Byte) :
    (signalOfName s.cfg.arch name = none ∧
      execCtrlSend name v s = raise (.invalidSignalError name) s) ∨
    (v ≠ 0 ∧ v ≠ 1 ∧ execCtrlSend name v s = raise (.illegalOperand v.toNat) s) ∨
    (∃ line level, signalOfName s.cfg.arch name = some line ∧ bitOfByte v = some level ∧
      (line ≠ .read ∨ level = false ∨ s.alatch = none) ∧
      execCtrlSend name v s = ret .unit (s.setControl line level)) ∨
    (∃ a, name = readName ∧ v = 1 ∧ s.alatch = some a ∧ s.cfg.numberOfChips ≤ a ∧
      execCtrlSend name v s = raise (.indexError a) (s.setControl .read true)) ∨
    (∃ a, name = readName ∧ v = 1 ∧ s.alatch = some a ∧ a < s.cfg.numberOfChips ∧
      s.cfg.totalBytes < internalAddress s.cfg a + s.cfg.wordBytes ∧
      execCtrlSend name v s = .fault (.outsideBuffer (internalAddress s.cfg a))) ∨
    (∃ a, name = readName ∧ v = 1 ∧ s.alatch = some a ∧ a < s.cfg.numberOfChips ∧
      internalAddress s.cfg a + s.cfg.wordBytes ≤ s.cfg.totalBytes ∧
      execCtrlSend name v s = ret .unit
        ((s.setControl .read true).setDlatch (s.memRead (internalAddress s.cfg a) s.cfg.wordBytes))) := by
  unfold execCtrlSend
  rw [issue_running hf]
  cases hs : signalOfName s.cfg.arch name with
  | none => exact .inl ⟨rfl, rfl⟩
  | some line =>
    refine .inr ?_
    cases hb : bitOfByte v with
    | none => exact .inl ⟨((bitOfByte_eq_none_iff v).1 hb).1, ((bitOfByte_eq_none_iff v).1 hb).2, rfl⟩
    | some level =>
      refine .inr ?_
      dsimp only
      by_cases hr : line = .read ∧ level = true
      · obtain ⟨rfl, rfl⟩ := hr
        have hv : v = 1 := by
          unfold bitOfByte at hb
          split at hb
          · cases hb
          · split at hb
            · assumption
            · cases hb
        have hname : name = readName := by
          rcases (name_of_signalOfName hs).2 with h | h | h
          · exact h.2
          · exact absurd h.1 (by decide)
          · exact absurd h.1 (by decide)
        rw [driveControl_read]
        rcases memoryReadResponse_cases (s.setControl .read true) with ⟨hn, heq⟩ | ⟨a, hal, hcase⟩
        · refine .inl ⟨.read, true, rfl, rfl, .inr (.inr (by simpa using hn)), by rw [heq]; rfl⟩
        · refine .inr ?_
          simp only [State.setControl_cfg, State.memRead_setControl, State.setControl_alatch] at hcase hal
          rcases hcase with ⟨hN, heq⟩ | ⟨hN, hbd, heq⟩ | ⟨hN, hbd, heq⟩
          · exact .inl ⟨a, hname, hv, hal, hN, by rw [heq]; rfl⟩
          · exact .inr (.inl ⟨a, hname, hv, hal, hN, hbd, by rw [heq]; rfl⟩)
          · exact .inr (.inr ⟨a, hname, hv, hal, hN, hbd, by rw [heq]; rfl⟩)
      · have hu : line ≠ .read ∨ level = false := by
          by_cases hl : line = .read
          · exact .inr (by simpa [hl] using hr)
          · exact .inl hl
        refine .inl ⟨line, level, rfl, rfl, ?_, by rw [driveControl_unheard hu]; rfl⟩
        rcases hu with h | h
        · exact .inl h
        · exact .inr (.inl h)

end Sys2Proof.Machine
end

