-- ==== Sys2Proof/Laws/Effect.lean ====
section
/-! SUPPORT. Everything each command can do when it answers a next state, said once: `CommandEffect i s t`
lists the states `t` that command `i` can leave a running machine `s` in. Statements over all commands cite
`exec_next` and go through this list, and unfold no meaning. -/

namespace Sys2Proof.Machine

/-- The state a raise leaves: the effects so far, FAULT, and the fault as the answer (60_exceptions.md R230). -/
def State.raised (s : State) (f : CoreFault) : State := (s.setFault f).setResult (.fault f)

@[simp] theorem State.raised_cfg (s : State) (f : CoreFault) : (s.raised f).cfg = s.cfg := rfl
@[simp] theorem State.raised_ip (s : State) (f : CoreFault) : (s.raised f).ip = s.ip := rfl
@[simp] theorem State.raised_seg (s : State) (f : CoreFault) : (s.raised f).seg = s.seg := rfl
@[simp] theorem State.raised_p (s : State) (f : CoreFault) : (s.raised f).p = s.p := rfl
@[simp] theorem State.raised_segs (s : State) (f : CoreFault) : (s.raised f).segs = s.segs := rfl
@[simp] theorem State.raised_queue (s : State) (f : CoreFault) : (s.raised f).queue = s.queue := rfl
@[simp] theorem State.raised_mem (s : State) (f : CoreFault) : (s.raised f).mem = s.mem := rfl
@[simp] theorem State.raised_alatch (s : State) (f : CoreFault) : (s.raised f).alatch = s.alatch := rfl
@[simp] theorem State.raised_dlatch (s : State) (f : CoreFault) : (s.raised f).dlatch = s.dlatch := rfl
@[simp] theorem State.raised_ctrl (s : State) (f : CoreFault) : (s.raised f).ctrl = s.ctrl := rfl
@[simp] theorem State.raised_biu (s : State) (f : CoreFault) : (s.raised f).biu = s.biu := rfl
@[simp] theorem State.raised_fault (s : State) (f : CoreFault) : (s.raised f).fault = some f := rfl
@[simp] theorem State.raised_stream (s : State) (f : CoreFault) : (s.raised f).stream = s.stream := rfl
@[simp] theorem State.raised_result (s : State) (f : CoreFault) : (s.raised f).result = some (.fault f) := rfl

theorem raise_eq_raised (f : CoreFault) (s : State) : raise f s = .next (s.raised f) := rfl

@[simp] theorem queuedFetch_cfg (s : State) : (queuedFetch s).cfg = s.cfg := by rw [queuedFetch_eq]
@[simp] theorem queuedFetch_ip (s : State) : (queuedFetch s).ip = s.ip := by rw [queuedFetch_eq]
@[simp] theorem queuedFetch_seg (s : State) : (queuedFetch s).seg = s.seg := by rw [queuedFetch_eq]
@[simp] theorem queuedFetch_p (s : State) : (queuedFetch s).p = s.p := by rw [queuedFetch_eq]
@[simp] theorem queuedFetch_segs (s : State) : (queuedFetch s).segs = s.segs := by rw [queuedFetch_eq]
@[simp] theorem queuedFetch_queue (s : State) : (queuedFetch s).queue =
    if s.queue.length < Config.queueCapacity then s.queue ++ [fetchedWord s] else s.queue := by
  rw [queuedFetch_eq]
@[simp] theorem queuedFetch_mem (s : State) : (queuedFetch s).mem = s.mem := by rw [queuedFetch_eq]
@[simp] theorem queuedFetch_alatch (s : State) : (queuedFetch s).alatch = some (physicalAddress s) := by
  rw [queuedFetch_eq]
@[simp] theorem queuedFetch_dlatch (s : State) : (queuedFetch s).dlatch = some (fetchedWord s) := by
  rw [queuedFetch_eq]
@[simp] theorem queuedFetch_ctrl (s : State) : (queuedFetch s).ctrl = { s.ctrl with read := some true } := by
  rw [queuedFetch_eq]
@[simp] theorem queuedFetch_biu (s : State) : (queuedFetch s).biu = .dequeueReady := by rw [queuedFetch_eq]
@[simp] theorem queuedFetch_fault (s : State) : (queuedFetch s).fault = s.fault := by rw [queuedFetch_eq]
@[simp] theorem queuedFetch_stream (s : State) : (queuedFetch s).stream = s.stream := by rw [queuedFetch_eq]

/-- What a checked store can leave (43_memory_ops.md R180 and R182). -/
def StoreEffect (a v : Int) (s t : State) : Prop :=
  t = s.raised (.bufferBoundsFault a) ∨ t = s.raised (.valueWidthFault v) ∨
    (0 ≤ a ∧ a + s.cfg.wordBytes ≤ s.cfg.totalBytes ∧ 0 ≤ v ∧
      t = (s.memWrite a.toNat s.cfg.wordBytes v.toNat).setResult .unit)

/-- What a two-input gate can leave (42_decoder.md R161 and R162). -/
def GateEffect (a b : Byte) (s t : State) : Prop :=
  t = s.raised (.illegalOperand a.toNat) ∨ t = s.raised (.illegalOperand b.toNat) ∨
    ∃ y, t = s.setResult (.bit y)

/-- The next states of each command on a running machine. -/
def CommandEffect : Instr → State → State → Prop
  | .addrSend a, s, t => t = (s.setAlatch a).setResult .unit
  | .dataSend d, s, t => t = (s.setDlatch d).setResult .unit
  | .ctrlSend name v, s, t =>
    t = s.raised (.invalidSignalError name) ∨ t = s.raised (.illegalOperand v.toNat) ∨
    (∃ line level, signalOfName s.cfg.arch name = some line ∧
      t = (s.setControl line level).setResult .unit) ∨
    (∃ a, name = readName ∧ v = 1 ∧ s.alatch = some a ∧ s.cfg.numberOfChips ≤ a ∧
      t = (s.setControl .read true).raised (.indexError (a : Nat))) ∨
    (∃ w, name = readName ∧ v = 1 ∧ t = ((s.setControl .read true).setDlatch w).setResult .unit)
  | .setOffset r v, s, t =>
    t = s.raised (.illegalOperand r) ∨ t = s.raised (.offsetRangeError v) ∨
    (0 ≤ v ∧ v ≤ s.cfg.mode.maxOffset ∧ t = (s.setPointer r v.toNat).setResult .unit)
  | .getOffset r, s, t => t = s.raised (.illegalOperand r) ∨ ∃ v, t = s.setResult (.nat v)
  | .ipInc r k, s, t =>
    t = s.raised (.illegalOperand r) ∨ t = s.raised (.offsetRangeError (s.ip + k : Nat)) ∨
    (r = 0 ∧ s.ip + k ≤ s.cfg.mode.maxOffset ∧ t = (s.setIp (s.ip + k)).setResult .unit)
  | .ipReset r, s, t => t = s.raised (.illegalOperand r) ∨ (r = 0 ∧ t = (s.setIp 0).setResult .unit)
  | .setBase r v, s, t =>
    t = s.raised (.illegalOperand r) ∨ t = s.raised (.baseRangeError v) ∨
    (0 ≤ v ∧ v ≤ maxBase ∧ t = (s.setSegment r v.toNat).setResult .unit)
  | .getBase r, s, t => t = s.raised (.illegalOperand r) ∨ ∃ v, t = s.setResult (.nat v)
  | .notGate a, s, t => t = s.raised (.illegalOperand a.toNat) ∨ ∃ y, t = s.setResult (.bit y)
  | .andGate a b, s, t => GateEffect a b s t
  | .orGate a b, s, t => GateEffect a b s t
  | .cascadeAnd bits, s, t =>
    t = s.raised (.arityError bits.length) ∨ (∃ e ∈ bits, t = s.raised (.illegalOperand e.toNat)) ∨
    ∃ y, t = s.setResult (.bit y)
  | .truthTable n, s, t => t = s.setResult (.rows (truthTableRows n))
  | .decLookup a, s, t => t = s.raised (.indexError a) ∨ ∃ c, t = s.setResult (.chip c)
  | .decOnehot x, s, t => t = s.raised (.indexError x) ∨ ∃ k, t = s.setResult (.bits (oneHotOutput s.cfg k))
  | .memWrite a v, s, t => t = s.raised (.addressOutOfRangeError a) ∨ StoreEffect a v s t
  | .rawStore a v, s, t => StoreEffect a v s t
  | .rawLoad a, s, t => t = s.raised (.bufferBoundsFault a) ∨ ∃ v, t = s.setResult (.nat v)
  | .fetch, s, t =>
    t = s.raised (.modeNotSupported s.cfg.mode) ∨
    (s.cfg.arch ≠ .x86 ∧ t = (beginFetch s).raised (.invalidSignalError readName)) ∨
    (s.cfg.numberOfChips ≤ physicalAddress s ∧
      t = ((beginFetch s).setControl .read true).raised (.indexError (physicalAddress s))) ∨
    (physicalAddress s < s.cfg.numberOfChips ∧
      t = (queuedFetch s).raised (.offsetRangeError (s.ip + 1 : Nat))) ∨
    (physicalAddress s < s.cfg.numberOfChips ∧ s.ip + 1 ≤ s.cfg.mode.maxOffset ∧
      t = (((queuedFetch s).setIp (s.ip + 1)).setBiu .idle).setResult (.status s.hasRoom))
  | .decode, s, t =>
    t = s.setResult (.decoded none) ∨
    ∃ w q, s.queue = w :: q ∧ t = (s.setQueue q).setResult (.decoded (some (w, Config.dec w s.cfg.wordBits)))

theorem storeWord_next {s t : State} {a v : Int} (h : storeWord s a v = .next t) : StoreEffect a v s t := by
  rcases storeWord_cases s a v with ⟨_, e⟩ | ⟨_, _, _, e⟩ | ⟨h1, h2, h3, _, e⟩ <;> rw [e] at h
  · exact .inl (raise_next h)
  · exact .inr (.inl (raise_next h))
  · exact .inr (.inr ⟨h1, h2, h3, ret_next h⟩)

theorem twoInputGate_next {g : Bit → Bit → Bit} {s t : State} {a b : Byte}
    (h : twoInputGate g a b s = .next t) : GateEffect a b s t := by
  unfold twoInputGate at h
  split at h
  · exact .inl (raise_next h)
  · split at h
    · exact .inr (.inl (raise_next h))
    · exact .inr (.inr ⟨_, ret_next h⟩)

/-- A command's answer on a running machine is one of its listed effects. -/
theorem exec_running_next {i : Instr} {s t : State} (hf : s.fault = none) (h : exec i s = .next t) :
    CommandEffect i s t := by
  cases i with
  | addrSend a => exact ret_next (by rw [← h]; exact (issue_running hf _).symm)
  | dataSend d => exact ret_next (by rw [← h]; exact (issue_running hf _).symm)
  | ctrlSend name v =>
    simp only [exec] at h
    rcases execCtrlSend_cases hf name v with ⟨_, e⟩ | ⟨_, _, e⟩ | ⟨line, level, hl, _, _, e⟩ |
      ⟨a, hn, hv, ha, hN, e⟩ | ⟨a, _, _, _, _, _, e⟩ | ⟨a, hn, hv, _, _, _, e⟩ <;> rw [e] at h
    · exact .inl (raise_next h)
    · exact .inr (.inl (raise_next h))
    · exact .inr (.inr (.inl ⟨line, level, hl, ret_next h⟩))
    · exact .inr (.inr (.inr (.inl ⟨a, hn, hv, ha, hN, raise_next h⟩)))
    · cases h
    · exact .inr (.inr (.inr (.inr ⟨_, hn, hv, ret_next h⟩)))
  | setOffset r v =>
    simp only [exec, execSetOffset, issue_running hf] at h
    split at h
    · exact .inl (raise_next h)
    · split at h
      · exact .inr (.inl (raise_next h))
      · exact .inr (.inr ⟨by omega, by omega, ret_next h⟩)
  | getOffset r =>
    simp only [exec, execGetOffset, issue_running hf] at h
    split at h
    · exact .inl (raise_next h)
    · exact .inr ⟨_, ret_next h⟩
  | ipInc r k =>
    simp only [exec, execIpInc, issue_running hf] at h
    split at h
    · exact .inl (raise_next h)
    · rename_i hr
      split at h
      · exact .inr (.inl (raise_next h))
      · exact .inr (.inr ⟨(regOfNumber_ip _ _).1 (not_not.1 hr), by omega, ret_next h⟩)
  | ipReset r =>
    simp only [exec, execIpReset, issue_running hf] at h
    split at h
    · exact .inl (raise_next h)
    · rename_i hr
      exact .inr ⟨(regOfNumber_ip _ _).1 (not_not.1 hr), ret_next h⟩
  | setBase r v =>
    simp only [exec, execSetBase, issue_running hf] at h
    split at h
    · exact .inl (raise_next h)
    · split at h
      · exact .inr (.inl (raise_next h))
      · exact .inr (.inr ⟨by omega, by omega, ret_next h⟩)
  | getBase r =>
    simp only [exec, execGetBase, issue_running hf] at h
    split at h
    · exact .inl (raise_next h)
    · exact .inr ⟨_, ret_next h⟩
  | notGate a =>
    simp only [exec, execNotGate, issue_running hf] at h
    split at h
    · exact .inl (raise_next h)
    · exact .inr ⟨_, ret_next h⟩
  | andGate a b => exact twoInputGate_next (by rw [← h]; exact (issue_running hf _).symm)
  | orGate a b => exact twoInputGate_next (by rw [← h]; exact (issue_running hf _).symm)
  | cascadeAnd bits =>
    simp only [exec, execCascadeAnd, issue_running hf] at h
    split at h
    · exact .inl (raise_next h)
    · split at h
      · rename_i e he
        exact .inr (.inl ⟨e, List.mem_of_find?_eq_some he, raise_next h⟩)
      · exact .inr (.inr ⟨_, ret_next h⟩)
  | truthTable n => exact ret_next (by rw [← h]; exact (issue_running hf _).symm)
  | decLookup a =>
    simp only [exec, execDecLookup, issue_running hf] at h
    split at h
    · exact .inl (raise_next h)
    · exact .inr ⟨_, ret_next h⟩
  | decOnehot x =>
    simp only [exec, execDecOnehot, issue_running hf] at h
    split at h
    · exact .inl (raise_next h)
    · exact .inr ⟨_, ret_next h⟩
  | memWrite a v =>
    simp only [exec, execMemWrite, issue_running hf] at h
    split at h
    · exact .inl (raise_next h)
    · exact .inr (storeWord_next h)
  | rawStore a v => exact storeWord_next (by rw [← h]; exact (issue_running hf _).symm)
  | rawLoad a =>
    simp only [exec, execRawLoad, issue_running hf] at h
    split at h
    · exact .inl (raise_next h)
    · exact .inr ⟨_, ret_next h⟩
  | fetch =>
    simp only [exec] at h
    rcases execFetch_cases hf with ⟨_, e⟩ | ⟨_, ha, e⟩ | ⟨_, _, hN, e⟩ | ⟨_, _, _, _, e⟩ | ⟨_, _, hN, _, _, e⟩ |
      ⟨_, _, hN, _, hip, e⟩ <;> rw [e] at h
    · exact .inl (raise_next h)
    · exact .inr (.inl ⟨ha, raise_next h⟩)
    · exact .inr (.inr (.inl ⟨hN, raise_next h⟩))
    · cases h
    · exact .inr (.inr (.inr (.inl ⟨hN, raise_next h⟩)))
    · exact .inr (.inr (.inr (.inr ⟨hN, hip, ret_next h⟩)))
  | decode =>
    simp only [exec, execDecode, issue_running hf] at h
    split at h
    · exact .inl (ret_next h)
    · rename_i w q hq
      exact .inr ⟨w, q, hq, ret_next h⟩

/-- A command's answer: a halted machine's recorded fault, or one of the command's listed effects. -/
theorem exec_next {i : Instr} {s t : State} (h : exec i s = .next t) :
    (∃ f, s.fault = some f ∧ t = s.setResult (.fault f)) ∨ (s.fault = none ∧ CommandEffect i s t) := by
  cases hf : s.fault with
  | none => exact .inr ⟨rfl, exec_running_next hf h⟩
  | some f =>
    rw [exec_halted i hf] at h
    exact .inl ⟨f, rfl, (Host.Outcome.next.inj h).symm⟩

/-- A step's answer: nothing issued, bytes that are no command, or a command's answer. -/
theorem step_next {s t : State} (h : step s = .next t) :
    (s.stream = [] ∧ t = s) ∨
    (∃ op, nextCommand s.stream = .illegal op ∧
      ((∃ f, s.fault = some f ∧ t = (s.setStream []).setResult (.fault f)) ∨
        (s.fault = none ∧ t = (s.setStream []).raised (.illegalCommand op)))) ∨
    (∃ i rest, decode s.stream = .ok (i, rest) ∧ exec i (s.setStream rest) = .next t) := by
  unfold step at h
  split at h
  · rename_i hn
    refine .inl ⟨?_, (Host.Outcome.next.inj h).symm⟩
    unfold nextCommand at hn
    split at hn
    · assumption
    · split at hn <;> cases hn
  · rename_i i rest hn
    refine .inr (.inr ⟨i, rest, ?_, h⟩)
    unfold nextCommand at hn
    split at hn
    · cases hn
    · split at hn
      · rename_i hd
        cases hn
        exact hd
      · cases hn
  · rename_i op hn
    refine .inr (.inl ⟨op, hn, ?_⟩)
    unfold rejectCommand at h
    rcases issue_next h with ⟨f, hf, e⟩ | ⟨hf, e⟩
    · exact .inl ⟨f, hf, e⟩
    · exact .inr ⟨hf, raise_next e⟩

end Sys2Proof.Machine
end

