-- ==== Sys2Proof/Laws/PerInstr.lean ====
section
/-! SUPPORT. Per-instruction laws of the encoding: family HeaderByte says that a command's bytes begin with its
own header byte, which is a row of the opcode map (30_encoding.md R90 and R99). -/

namespace Sys2Proof.Laws.HeaderByte

/-- The command's bytes are its header byte and its operands, and the header is a row of R99. -/
def Statement (i : Instr) : Prop :=
  i.opcode ∈ opcodes ∧ ∃ operands, encode i = i.opcode :: operands

theorem addrSend (a : Nat) : Statement (.addrSend a) :=
  ⟨by simp [Instr.opcode, opcodes], _, rfl⟩

theorem dataSend (d : Nat) : Statement (.dataSend d) :=
  ⟨by simp [Instr.opcode, opcodes], _, rfl⟩

theorem ctrlSend (name : Name) (v : Byte) : Statement (.ctrlSend name v) :=
  ⟨by simp [Instr.opcode, opcodes], _, rfl⟩

theorem setOffset (r : Nat) (v : Int) : Statement (.setOffset r v) :=
  ⟨by simp [Instr.opcode, opcodes], _, rfl⟩

theorem getOffset (r : Nat) : Statement (.getOffset r) :=
  ⟨by simp [Instr.opcode, opcodes], _, rfl⟩

theorem ipInc (r k : Nat) : Statement (.ipInc r k) :=
  ⟨by simp [Instr.opcode, opcodes], _, rfl⟩

theorem ipReset (r : Nat) : Statement (.ipReset r) :=
  ⟨by simp [Instr.opcode, opcodes], _, rfl⟩

theorem setBase (r : Nat) (v : Int) : Statement (.setBase r v) :=
  ⟨by simp [Instr.opcode, opcodes], _, rfl⟩

theorem getBase (r : Nat) : Statement (.getBase r) :=
  ⟨by simp [Instr.opcode, opcodes], _, rfl⟩

theorem notGate (a : Byte) : Statement (.notGate a) :=
  ⟨by simp [Instr.opcode, opcodes], _, rfl⟩

theorem andGate (a b : Byte) : Statement (.andGate a b) :=
  ⟨by simp [Instr.opcode, opcodes], _, rfl⟩

theorem orGate (a b : Byte) : Statement (.orGate a b) :=
  ⟨by simp [Instr.opcode, opcodes], _, rfl⟩

theorem cascadeAnd (bits : List Byte) : Statement (.cascadeAnd bits) :=
  ⟨by simp [Instr.opcode, opcodes], _, rfl⟩

theorem truthTable (n : Nat) : Statement (.truthTable n) :=
  ⟨by simp [Instr.opcode, opcodes], _, rfl⟩

theorem decLookup (a : Int) : Statement (.decLookup a) :=
  ⟨by simp [Instr.opcode, opcodes], _, rfl⟩

theorem decOnehot (x : Int) : Statement (.decOnehot x) :=
  ⟨by simp [Instr.opcode, opcodes], _, rfl⟩

theorem memWrite (a v : Int) : Statement (.memWrite a v) :=
  ⟨by simp [Instr.opcode, opcodes], _, rfl⟩

theorem rawStore (a v : Int) : Statement (.rawStore a v) :=
  ⟨by simp [Instr.opcode, opcodes], _, rfl⟩

theorem rawLoad (a : Int) : Statement (.rawLoad a) :=
  ⟨by simp [Instr.opcode, opcodes], _, rfl⟩

theorem fetch : Statement .fetch :=
  ⟨by simp [Instr.opcode, opcodes], _, rfl⟩

theorem decode : Statement .decode :=
  ⟨by simp [Instr.opcode, opcodes], _, rfl⟩

end Sys2Proof.Laws.HeaderByte
end

