-- ==== Sys2Proof/Laws/Varint.lean ====
section
/-! SUPPORT. The varints of 30_encoding.md R93 and R94, read and written: what the group reader accepts, the
value of groups, and how many groups a number takes. -/

namespace Sys2Proof

/-! ### Groups as bytes -/

theorem takeGroups_groupBytes {gs : List Nat} (hne : gs ≠ []) (hlt : ∀ g ∈ gs, g < 128) (rest : List Byte) :
    takeGroups (groupBytes gs ++ rest) = .ok (gs, rest) := by
  induction gs with
  | nil => exact absurd rfl hne
  | cons g gs ih =>
    have hg : g < 128 := hlt g (by simp)
    cases gs with
    | nil =>
      have h1 : (BitVec.ofNat 8 g).toNat = g := by rw [BitVec.toNat_ofNat]; omega
      simp only [groupBytes, List.cons_append, List.nil_append, takeGroups, h1, if_pos hg]
    | cons h gs =>
      have h1 : (BitVec.ofNat 8 (g + 128)).toNat = g + 128 := by rw [BitVec.toNat_ofNat]; omega
      have ih' := ih (by simp) (fun x hx => hlt x (by simp [hx]))
      simp only [groupBytes, List.cons_append, takeGroups, h1, if_neg (show ¬ g + 128 < 128 by omega)]
      rw [ih']
      simp

theorem takeGroups_ok {bs rest : List Byte} {gs : List Nat} (h : takeGroups bs = .ok (gs, rest)) :
    gs ≠ [] ∧ (∀ g ∈ gs, g < 128) ∧ bs = groupBytes gs ++ rest := by
  induction bs generalizing gs with
  | nil => simp [takeGroups] at h
  | cons b bs ih =>
    simp only [takeGroups] at h
    split at h
    · rename_i hb
      simp only [Except.ok.injEq, Prod.mk.injEq] at h
      obtain ⟨rfl, rfl⟩ := h
      refine ⟨by simp, by simpa using hb, ?_⟩
      simp [groupBytes]
    · rename_i hb
      split at h
      · rename_i gs' rest' heq
        simp only [Except.ok.injEq, Prod.mk.injEq] at h
        obtain ⟨rfl, rfl⟩ := h
        obtain ⟨hne, hlt, hbs⟩ := ih heq
        have hb2 : b.toNat < 256 := b.isLt
        refine ⟨by simp, ?_, ?_⟩
        · intro g hg
          rcases List.mem_cons.1 hg with hg | hg
          · omega
          · exact hlt g hg
        · cases gs' with
          | nil => exact absurd rfl hne
          | cons g' gs' =>
            simp only [groupBytes, List.cons_append]
            rw [hbs, show b.toNat - 128 + 128 = b.toNat by omega]
            simp
      · cases h

/-! ### Values of groups -/

theorem lowGroups_length (k v : Nat) : (lowGroups k v).length = k := by
  induction k generalizing v with
  | zero => rfl
  | succ k ih => simp [lowGroups, ih]

theorem lowGroups_lt (k v : Nat) : ∀ g ∈ lowGroups k v, g < 128 := by
  induction k generalizing v with
  | zero => simp [lowGroups]
  | succ k ih =>
    intro g hg
    simp only [lowGroups, List.mem_cons] at hg
    rcases hg with rfl | hg
    · omega
    · exact ih _ g hg

theorem two_pow_seven_mul_succ (k : Nat) : 2 ^ (7 * (k + 1)) = 128 * 2 ^ (7 * k) := by
  rw [Nat.mul_add, Nat.pow_add, Nat.mul_comm]

theorem groupsValue_lowGroups {k v : Nat} (h : v < 2 ^ (7 * k)) : groupsValue (lowGroups k v) = v := by
  induction k generalizing v with
  | zero => simp at h; simp [lowGroups, groupsValue, h]
  | succ k ih =>
    rw [two_pow_seven_mul_succ] at h
    simp only [lowGroups, groupsValue]
    rw [ih (by omega)]
    omega

theorem lowGroups_groupsValue {gs : List Nat} (hlt : ∀ g ∈ gs, g < 128) :
    lowGroups gs.length (groupsValue gs) = gs := by
  induction gs with
  | nil => rfl
  | cons g gs ih =>
    have hg : g < 128 := hlt g (by simp)
    simp only [List.length_cons, lowGroups, groupsValue]
    rw [show (g + 128 * groupsValue gs) % 128 = g by omega,
      show (g + 128 * groupsValue gs) / 128 = groupsValue gs by omega,
      ih (fun x hx => hlt x (by simp [hx]))]

theorem groupsValue_lt {gs : List Nat} (hlt : ∀ g ∈ gs, g < 128) : groupsValue gs < 2 ^ (7 * gs.length) := by
  induction gs with
  | nil => simp [groupsValue]
  | cons g gs ih =>
    have hg : g < 128 := hlt g (by simp)
    have := ih (fun x hx => hlt x (by simp [hx]))
    simp only [List.length_cons, groupsValue]
    rw [two_pow_seven_mul_succ]
    omega

/-- The last group is 0 exactly when the value fits one group less. -/
theorem getLastD_ne_zero_iff {g : Nat} {gs : List Nat} (hlt : ∀ x ∈ g :: gs, x < 128) :
    (g :: gs).getLastD 0 ≠ 0 ↔ 2 ^ (7 * gs.length) ≤ groupsValue (g :: gs) := by
  induction gs generalizing g with
  | nil =>
    simp [groupsValue]
    omega
  | cons h gs ih =>
    have hg : g < 128 := hlt g (by simp)
    have h1 := ih (g := h) (fun x hx => hlt x (by simp only [List.mem_cons] at hx ⊢; tauto))
    have h2 : (g :: h :: gs).getLastD 0 = (h :: gs).getLastD 0 := by simp
    rw [h2, h1, show groupsValue (g :: h :: gs) = g + 128 * groupsValue (h :: gs) from rfl, List.length_cons,
      two_pow_seven_mul_succ]
    omega

/-! ### Group counts -/

/-- `v` fits `k` groups exactly when its group count is at most `k`. -/
theorem lt_two_pow_iff_natGroupCount_le {k v : Nat} (hk : 1 ≤ k) : v < 2 ^ (7 * k) ↔ natGroupCount v ≤ k := by
  unfold natGroupCount
  by_cases hv : v = 0
  · subst hv
    simp [hk]
  · rw [← Nat.log2_lt hv]
    omega

theorem lt_two_pow_iff_bitLength_le (m j : Nat) : m < 2 ^ j ↔ bitLength m ≤ j := by
  unfold bitLength
  by_cases hm : m = 0
  · simp [hm]
  · rw [if_neg hm, ← Nat.log2_lt hm]
    omega

/-- `v` fits `k` signed groups exactly when its signed group count is at most `k`. -/
theorem fitsSigned_iff {k : Nat} {v : Int} (hk : 1 ≤ k) : fitsSigned k v = true ↔ intGroupCount v ≤ k := by
  have hcast : (2 ^ (7 * k - 1) : Int) = ((2 ^ (7 * k - 1) : Nat) : Int) := by push_cast; rfl
  have hm : fitsSigned k v = true ↔
      (if 0 ≤ v then v.toNat else (-v - 1).toNat) < 2 ^ (7 * k - 1) := by
    simp only [fitsSigned, decide_eq_true_eq, hcast]
    split <;> omega
  rw [hm, lt_two_pow_iff_bitLength_le, intGroupCount]
  omega

theorem two_pow_seven_mul_pred {k : Nat} (hk : 1 ≤ k) : 2 ^ (7 * k) = 2 * 2 ^ (7 * k - 1) := by
  rw [← Nat.pow_succ', show (7 * k - 1).succ = 7 * k by omega]

/-- The groups of a fitting integer stand for it. -/
theorem signedValue_emod {k : Nat} {v : Int} (hk : 1 ≤ k) (h : fitsSigned k v = true) :
    signedValue k (v % (2 ^ (7 * k) : Int)).toNat = v := by
  have hcast : (2 ^ (7 * k) : Int) = ((2 ^ (7 * k) : Nat) : Int) := by push_cast; rfl
  have hcast1 : (2 ^ (7 * k - 1) : Int) = ((2 ^ (7 * k - 1) : Nat) : Int) := by push_cast; rfl
  have h2 := two_pow_seven_mul_pred hk
  simp only [fitsSigned, decide_eq_true_eq, hcast1] at h
  have hpos : 0 < 2 ^ (7 * k - 1) := Nat.two_pow_pos _
  unfold signedValue
  rw [hcast]
  by_cases hv : 0 ≤ v
  · have : v % ((2 ^ (7 * k) : Nat) : Int) = v := Int.emod_eq_of_lt hv (by omega)
    rw [this, if_neg (by omega)]
    omega
  · have : v % ((2 ^ (7 * k) : Nat) : Int) = v + (2 ^ (7 * k) : Nat) := by
      rw [← Int.add_emod_right]
      exact Int.emod_eq_of_lt (by omega) (by omega)
    rw [this, if_pos (by omega)]
    omega

/-- The integer that groups stand for fits them and gives the groups back. -/
theorem fitsSigned_signedValue {k u : Nat} (hk : 1 ≤ k) (h : u < 2 ^ (7 * k)) :
    fitsSigned k (signedValue k u) = true ∧ (signedValue k u % (2 ^ (7 * k) : Int)).toNat = u := by
  have hcast : (2 ^ (7 * k) : Int) = ((2 ^ (7 * k) : Nat) : Int) := by push_cast; rfl
  have hcast1 : (2 ^ (7 * k - 1) : Int) = ((2 ^ (7 * k - 1) : Nat) : Int) := by push_cast; rfl
  have h2 := two_pow_seven_mul_pred hk
  simp only [fitsSigned, decide_eq_true_eq, hcast1, hcast, signedValue]
  split
  · refine ⟨by omega, ?_⟩
    rw [← Int.add_emod_right, Int.sub_add_cancel, Int.emod_eq_of_lt (by omega) (by omega)]
    omega
  · refine ⟨by omega, ?_⟩
    rw [Int.emod_eq_of_lt (by omega) (by omega)]
    omega

/-! ### Operands -/

theorem natGroupCount_pos (v : Nat) : 1 ≤ natGroupCount v := by unfold natGroupCount; omega

theorem intGroupCount_pos (v : Int) : 1 ≤ intGroupCount v := by unfold intGroupCount; omega

theorem ne_nil_of_length_eq {α : Type} {xs : List α} {k : Nat} (h : xs.length = k) (hk : 1 ≤ k) : xs ≠ [] := by
  rintro rfl
  simp at h
  omega

/-- An encoded `Nat` reads back (R93). -/
theorem takeNat_encodeNat (v : Nat) (rest : List Byte) : takeNat (encodeNat v ++ rest) = .ok (v, rest) := by
  have hk := natGroupCount_pos v
  have hval := groupsValue_lowGroups ((lt_two_pow_iff_natGroupCount_le hk).2 (Nat.le_refl _))
  have hlen := lowGroups_length (natGroupCount v) v
  have hlt := lowGroups_lt (natGroupCount v) v
  unfold takeNat encodeNat
  rw [takeGroups_groupBytes (ne_nil_of_length_eq hlen hk) hlt]
  dsimp only
  have hmin : minimalNat (lowGroups (natGroupCount v) v) = true := by
    unfold minimalNat
    cases hgs : lowGroups (natGroupCount v) v with
    | nil => rw [hgs] at hlen; simp at hlen; omega
    | cons g gs =>
      rw [hgs] at hlen hlt hval
      cases gs with
      | nil => simp
      | cons h gs =>
        have hge : 2 ^ (7 * (h :: gs).length) ≤ groupsValue (g :: h :: gs) := by
          rw [hval]
          by_contra hlt'
          have := (lt_two_pow_iff_natGroupCount_le (v := v) (k := (h :: gs).length) (by simp)).1 (by omega)
          simp only [List.length_cons] at hlen this
          omega
        have := (getLastD_ne_zero_iff hlt).2 hge
        simp only [bne_iff_ne.2 this, Bool.or_true]
  rw [if_pos hmin, hval]

/-- What reads as a `Nat` is its encoding: the minimal one (R93). -/
theorem takeNat_ok {bs rest : List Byte} {v : Nat} (h : takeNat bs = .ok (v, rest)) :
    bs = encodeNat v ++ rest := by
  unfold takeNat at h
  split at h
  · rename_i gs rest' heq
    split at h
    · rename_i hmin
      simp only [Except.ok.injEq, Prod.mk.injEq] at h
      obtain ⟨rfl, rfl⟩ := h
      obtain ⟨hne, hlt, hbs⟩ := takeGroups_ok heq
      have hk : 1 ≤ gs.length := List.length_pos_iff.2 hne
      have hle := (lt_two_pow_iff_natGroupCount_le hk).1 (groupsValue_lt hlt)
      have hcount : natGroupCount (groupsValue gs) = gs.length := by
        cases gs with
        | nil => exact absurd rfl hne
        | cons g gs =>
          cases gs with
          | nil => have := natGroupCount_pos (groupsValue [g]); simp at hle ⊢; omega
          | cons h gs =>
            have hlast : (g :: h :: gs).getLastD 0 ≠ 0 := by
              simp only [minimalNat, Bool.or_eq_true, beq_iff_eq, bne_iff_ne] at hmin
              rcases hmin with hmin | hmin
              · simp at hmin
              · exact hmin
            have hge := (getLastD_ne_zero_iff hlt).1 hlast
            have := mt (lt_two_pow_iff_natGroupCount_le (v := groupsValue (g :: h :: gs))
              (k := (h :: gs).length) (by simp)).2 (by omega)
            simp only [List.length_cons] at hle this ⊢
            omega
      rw [hbs, encodeNat, hcount, lowGroups_groupsValue hlt]
    · cases h
  · cases h

/-- An encoded `Int` reads back (R94). -/
theorem takeInt_encodeInt (v : Int) (rest : List Byte) : takeInt (encodeInt v ++ rest) = .ok (v, rest) := by
  have hk := intGroupCount_pos v
  have hfit := (fitsSigned_iff hk).2 (Nat.le_refl (intGroupCount v))
  have hcast : (2 ^ (7 * intGroupCount v) : Int) = ((2 ^ (7 * intGroupCount v) : Nat) : Int) := by push_cast; rfl
  have hpos : (0 : Int) < (2 ^ (7 * intGroupCount v) : Int) := by positivity
  have hu : (v % (2 ^ (7 * intGroupCount v) : Int)).toNat < 2 ^ (7 * intGroupCount v) := by
    have h1 := Int.emod_lt_of_pos v hpos
    have h2 := Int.emod_nonneg v (ne_of_gt hpos)
    omega
  have hval := groupsValue_lowGroups hu
  have hlen := lowGroups_length (intGroupCount v) (v % (2 ^ (7 * intGroupCount v) : Int)).toNat
  have hlt := lowGroups_lt (intGroupCount v) (v % (2 ^ (7 * intGroupCount v) : Int)).toNat
  unfold takeInt encodeInt
  dsimp only
  rw [takeGroups_groupBytes (ne_nil_of_length_eq hlen hk) hlt]
  dsimp only
  rw [hlen, hval, signedValue_emod hk hfit, if_pos]
  by_cases h1 : intGroupCount v = 1
  · simp [h1]
  · have : fitsSigned (intGroupCount v - 1) v = false := by
      rw [← Bool.not_eq_true]
      intro hf
      have := (fitsSigned_iff (k := intGroupCount v - 1) (by omega)).1 hf
      omega
    simp [this]

/-- What reads as an `Int` is its encoding (R94). -/
theorem takeInt_ok {bs rest : List Byte} {v : Int} (h : takeInt bs = .ok (v, rest)) :
    bs = encodeInt v ++ rest := by
  unfold takeInt at h
  split at h
  · rename_i gs rest' heq
    dsimp only at h
    split at h
    · rename_i hmin
      simp only [Except.ok.injEq, Prod.mk.injEq] at h
      obtain ⟨rfl, rfl⟩ := h
      obtain ⟨hne, hlt, hbs⟩ := takeGroups_ok heq
      have hk : 1 ≤ gs.length := List.length_pos_iff.2 hne
      obtain ⟨hfit, hu⟩ := fitsSigned_signedValue hk (groupsValue_lt hlt)
      have hle := (fitsSigned_iff hk).1 hfit
      have hcount : intGroupCount (signedValue gs.length (groupsValue gs)) = gs.length := by
        simp only [Bool.or_eq_true, beq_iff_eq, Bool.not_eq_true'] at hmin
        have hpos := intGroupCount_pos (signedValue gs.length (groupsValue gs))
        rcases hmin with hmin | hmin
        · omega
        · by_cases h1 : gs.length = 1
          · omega
          · by_contra hne'
            have := (fitsSigned_iff (k := gs.length - 1) (v := signedValue gs.length (groupsValue gs))
              (by omega)).2 (by omega)
            rw [hmin] at this
            cases this
      rw [hbs, encodeInt, hcount, hu, lowGroups_groupsValue hlt]
    · cases h
  · cases h

end Sys2Proof
end

