-- ==== Sys2Proof/Tests/Slice0.lean ====
section
/-! SUPPORT. Tests of one step or one decoding each, their expected values copied from the vectors of
95_test_vectors.md and the worked encodings of 30_encoding.md R105; and, for every obligation with hypotheses,
a witness that meets them, clause by clause at the values where the clauses meet. -/

namespace Sys2Proof.Tests

open Sys2Proof.Machine

/-! ### The configurations of 95_test_vectors.md section 1, and helpers -/

def cfgA : Config := Config.sourceExample
def cfgB : Config := { cfgA with wordBytes := 2, bytesPerChip := 256 }
def cfgC : Config := { cfgA with bytesPerChip := 256, locPerChip := 256 }
def cfgD : Config := { cfgA with bytesPerChip := 4, locPerChip := 4 }
def cfgW4 : Config := { cfgA with wordBytes := 4, bytesPerChip := 512 }
def cfgP : Config := { cfgA with mode := .protectedMode }
def cfgL : Config := { cfgA with mode := .longMode }
def cfgBig : Config := { cfgA with addressLines := 17, bytesPerChip := 1, locPerChip := 1 }

/-- A configuration with two further registers of each kind, for the register numbers. -/
def cfgRegs : Config := { cfgA with nptr := 2, nseg := 2 }

/-- The state after a step, if there is one. -/
def after : Outcome → Option State
  | .next t => some t
  | _ => none

/-- A new machine of configuration `c` after one step on the given command bytes. -/
def run1 (c : Config) (bytes : List Byte) : Option State := after (step ((State.initial c).setStream bytes))

/-- What the host gets for the given command bytes. -/
def answer (s : State) (bytes : List Byte) : Option Result := (after (step (s.setStream bytes))).bind (·.result)

/-- The result of a decoding, compared as plain data. -/
def parsed (bytes : List Byte) : Option (Instr × List Byte) :=
  match decode bytes with
  | .ok x => some x
  | .error _ => none

/-- The fault of a construction, if it faults. -/
def constructionAnswer (c : Config) : Option CoreFault :=
  match construct c with
  | .fault (.construction f) => some f
  | _ => none

/-! ### WellFormed: an ill-formed command for its one check -/

theorem test_wellFormed_name_of_256_bytes_refused :
    Instr.wellFormed (.ctrlSend (List.replicate 256 0x41) 1) = false := by
  simp only [Instr.wellFormed, Name.fits, List.length_replicate]
  rfl

theorem test_wellFormed_name_of_255_bytes_accepted :
    Instr.wellFormed (.ctrlSend (List.replicate 255 0x41) 1) = true := by
  simp only [Instr.wellFormed, Name.fits, List.length_replicate]
  rfl

/-! ### Decoding: every constructor's word, from 95_test_vectors.md section 3 and 30_encoding.md R105 -/

theorem test_decode_addrSend : parsed [0x01, 0x88, 0x27] = some (.addrSend 5000, []) := by decide
theorem test_decode_dataSend : parsed [0x02, 0x4D] = some (.dataSend 0x4D, []) := by decide
theorem test_decode_ctrlSend : parsed [0x03, 0x05, 0x57, 0x52, 0x49, 0x54, 0x45, 0x00] =
    some (.ctrlSend writeName 0, []) := by decide
theorem test_decode_setOffset : parsed [0x10, 0x00, 0x7F] = some (.setOffset 0 (-1), []) := by decide
theorem test_decode_getOffset : parsed [0x11, 0x05] = some (.getOffset 5, []) := by decide
theorem test_decode_ipInc : parsed [0x12, 0x00, 0x01] = some (.ipInc 0 1, []) := by decide
theorem test_decode_ipReset : parsed [0x13, 0x00] = some (.ipReset 0, []) := by decide
theorem test_decode_setBase : parsed [0x14, 0x01, 0xFF, 0xFF, 0x03] = some (.setBase 1 0xFFFF, []) := by decide
theorem test_decode_getBase : parsed [0x15, 0x01] = some (.getBase 1, []) := by decide
theorem test_decode_notGate : parsed [0x20, 0x02] = some (.notGate 2, []) := by decide
theorem test_decode_andGate : parsed [0x21, 0x03, 0x02] = some (.andGate 3 2, []) := by decide
theorem test_decode_orGate : parsed [0x22, 0x00, 0x01] = some (.orGate 0 1, []) := by decide
theorem test_decode_cascadeAnd : parsed [0x23, 0x03, 0x01, 0x02, 0x03] = some (.cascadeAnd [1, 2, 3], []) := by
  decide
theorem test_decode_truthTable : parsed [0x24, 0x02] = some (.truthTable 2, []) := by decide
theorem test_decode_decLookup : parsed [0x25, 0x7F] = some (.decLookup (-1), []) := by decide
theorem test_decode_decOnehot : parsed [0x26, 0x05] = some (.decOnehot 5, []) := by decide
theorem test_decode_memWrite : parsed [0x30, 0xD0, 0x0F, 0xAC, 0x02] = some (.memWrite 2000 300, []) := by decide
theorem test_decode_rawStore : parsed [0x31, 0xFC, 0x1F, 0xEF, 0xFD, 0xB6, 0xF5, 0x0D] =
    some (.rawStore 4092 0xDEADBEEF, []) := by decide
theorem test_decode_rawLoad : parsed [0x32, 0xFF, 0x0F] = some (.rawLoad 2047, []) := by decide
theorem test_decode_fetch_leaves_the_rest : parsed [0x40, 0x41] = some (.fetch, [0x41]) := by decide
theorem test_decode_decode : parsed [0x41] = some (.decode, []) := by decide

/-- 95_test_vectors.md section 3.1: the illegal bytes. -/
theorem test_decode_illegal_bytes :
    parsed [0x00] = none ∧ parsed [0x16] = none ∧ parsed [0x50] = none ∧ parsed [0xFF] = none ∧
    parsed [0x10, 0x00, 0x80, 0x00] = none ∧ parsed [0x12, 0x00] = none := by decide

/-- 95_test_vectors.md section 3.1: unsigned varints. -/
theorem test_encode_unsigned_varints :
    encodeNat 0 = [0x00] ∧ encodeNat 127 = [0x7F] ∧ encodeNat 128 = [0x80, 0x01] ∧
    encodeNat 0xFFFF = [0xFF, 0xFF, 0x03] := by decide

/-- 95_test_vectors.md section 3.1: signed varints. -/
theorem test_encode_signed_varints :
    encodeInt 0 = [0x00] ∧ encodeInt (-1) = [0x7F] ∧ encodeInt 63 = [0x3F] ∧ encodeInt (-64) = [0x40] ∧
    encodeInt 64 = [0xC0, 0x00] ∧ encodeInt (-65) = [0xBF, 0x7F] ∧
    encodeInt 0x10000 = [0x80, 0x80, 0x04] ∧ encodeInt 0xFFFFFFFF = [0xFF, 0xFF, 0xFF, 0xFF, 0x0F] := by decide

/-- Table words are numbered with the first byte lowest. -/
theorem test_decodeTableWord : decodeTableWord 8 0x30 = some (.memWrite 0 0) := by decide

theorem test_withFetchWord_runs : (after (step (State.reset.withFetchWord 8 0x40))).map (·.ip) = some 1 := by
  decide

/-! ### Bus commands (95_test_vectors.md section 3.2) -/

theorem test_addrSend_unchecked :
    (run1 cfgA [0x01, 0x88, 0x27]).map (·.alatch) = some (some 5000) := by decide

theorem test_dataSend_leaves_the_queue :
    (run1 cfgA [0x02, 0x4D]).map (fun t => (t.dlatch, t.queue)) = some (some 0x4D, []) := by decide

/-- `MEM[5] = 0x77` and 5 on the address bus. -/
def atFive (c : Config) : State := { State.initial c with alatch := some 5, mem := [(1, 0xC1), (5, 0x77)] }

theorem test_ctrlSend_read_answers :
    (after (step ((atFive cfgA).setStream [0x03, 0x04, 0x52, 0x45, 0x41, 0x44, 0x01]))).map
      (fun t => (t.dlatch, t.queue)) = some (some 0x77, []) := by decide

theorem test_ctrlSend_checks_the_name_first :
    answer (State.initial cfgA) [0x03, 0x04, 0x48, 0x41, 0x4C, 0x54, 0x02] =
      some (.fault (.invalidSignalError [0x48, 0x41, 0x4C, 0x54])) := by decide

/-! ### Register commands (95_test_vectors.md section 3.3) -/

theorem test_setOffset_long_top :
    (run1 cfgL [0x10, 0x00, 0xFF, 0xFF, 0xFF, 0xFF, 0xFF, 0xFF, 0xFF, 0xFF, 0xFF, 0x01]).map (·.ip) =
      some (2 ^ 64 - 1) := by decide

theorem test_setOffset_real_too_large :
    (run1 cfgA [0x10, 0x00, 0x80, 0x80, 0x04]).map (fun t => (t.ip, t.result)) =
      some (0, some (.fault (.offsetRangeError 0x10000))) := by decide

theorem test_getOffset_refuses_a_segment_register :
    answer (State.initial cfgA) [0x11, 0x01] = some (.fault (.illegalOperand 1)) := by decide

theorem test_ipInc_at_the_top :
    answer { State.initial cfgA with ip := 0xFFFF } [0x12, 0x00, 0x01] =
      some (.fault (.offsetRangeError 0x10000)) := by decide

theorem test_ipReset_keeps_the_queue :
    (after (step { State.initial cfgA with ip := 0x1234, queue := [0x4D], stream := [0x13, 0x00] })).map
      (fun t => (t.ip, t.queue)) = some (0, [0x4D]) := by decide

theorem test_setBase_16_bits_in_protected_mode :
    answer (State.initial cfgP) [0x14, 0x01, 0x80, 0x80, 0x04] = some (.fault (.baseRangeError 0x10000)) := by
  decide

theorem test_setBase_top : (run1 cfgA [0x14, 0x01, 0xFF, 0xFF, 0x03]).map (·.seg) = some 0xFFFF := by decide

theorem test_getBase : answer { State.initial cfgA with seg := 1 } [0x15, 0x01] = some (.nat 1) := by decide

/-! ### Gates and decoder (95_test_vectors.md section 3.4) -/

theorem test_notGate : answer (State.initial cfgA) [0x20, 0x00] = some (.bit true) := by decide

theorem test_andGate_checks_A_first :
    answer (State.initial cfgA) [0x21, 0x03, 0x02] = some (.fault (.illegalOperand 3)) := by decide

theorem test_andGate : answer (State.initial cfgA) [0x21, 0x01, 0x00] = some (.bit false) := by decide

theorem test_orGate : answer (State.initial cfgA) [0x22, 0x00, 0x01] = some (.bit true) := by decide

theorem test_cascadeAnd_checks_the_count_first :
    answer (State.initial cfgA) [0x23, 0x01, 0x02] = some (.fault (.arityError 1)) := by decide

theorem test_cascadeAnd : answer (State.initial cfgA) [0x23, 0x03, 0x01, 0x01, 0x00] = some (.bit false) := by
  decide

theorem test_truthTable_two :
    answer (State.initial cfgA) [0x24, 0x02] =
      some (.rows [[false, false], [false, true], [true, false], [true, true]]) := by decide

theorem test_decLookup_last : answer (State.initial cfgA) [0x25, 0x07] = some (.chip (some 7)) := by decide

theorem test_decLookup_past_the_chips :
    answer (State.initial cfgA) [0x25, 0x08] = some (.fault (.indexError 8)) := by decide

theorem test_decOnehot :
    answer (State.initial cfgC) [0x26, 0x02] = some (.bits [false, false, true, false]) := by decide

/-! ### Memory (95_test_vectors.md section 3.5) -/

theorem test_memWrite_last_word :
    (run1 cfgB [0x30, 0xFE, 0x0F, 0xFF, 0xFF, 0x03]).map (·.mem) = some [(2046, 0xFF), (2047, 0xFF)] := by decide

theorem test_memWrite_checks_the_bounds_before_the_value :
    answer (State.initial cfgB) [0x30, 0xFF, 0x0F, 0x80, 0x80, 0x04] =
      some (.fault (.bufferBoundsFault 2047)) := by decide

theorem test_rawStore_little_endian :
    (run1 cfgW4 [0x31, 0xFC, 0x1F, 0xEF, 0xFD, 0xB6, 0xF5, 0x0D]).map (·.mem) =
      some [(4092, 0xEF), (4093, 0xBE), (4094, 0xAD), (4095, 0xDE)] := by decide

theorem test_rawStore_below_the_buffer :
    answer (State.initial cfgB) [0x31, 0x7F, 0x00] = some (.fault (.bufferBoundsFault (-1))) := by decide

theorem test_rawLoad :
    answer { State.initial cfgB with mem := [(4, 0xEF), (5, 0xBE)] } [0x32, 0x04] = some (.nat 0xBEEF) := by
  decide

/-! ### Microprocessor (95_test_vectors.md section 3.6) -/

theorem test_fetch_aliases_through_the_mask :
    (after (step { State.initial cfgD with ip := 5, mem := [(1, 0xC1)], stream := [0x40] })).map
      (fun t => (t.queue, t.ip)) = some ([0xC1], 6) := by decide

theorem test_fetch_at_the_top_of_the_range :
    (after (step { State.initial cfgBig with ip := 0xFFFF, mem := [(0, 0x5A)], stream := [0x40] })).map
      (fun t => (t.queue, t.biu, t.fault)) =
        some ([0x5A], .dequeueReady, some (.offsetRangeError 0x10000)) := by decide

theorem test_decode_dequeues :
    (after (step { State.initial cfgA with queue := [0x4D, 0x4F], stream := [0x41] })).map (·.queue) =
      some [0x4F] := by decide

theorem test_decode_of_an_empty_queue :
    (run1 cfgA [0x41]).map (fun t => (t.result, t.fault)) = some (some (.decoded none), none) := by decide

/-! ### Faults and construction (95_test_vectors.md sections 3.7 and 3.8) -/

theorem test_halted_machine_answers_illegal_bytes_with_its_fault :
    answer { State.initial cfgA with fault := some (.indexError 8) } [0x00] =
      some (.fault (.indexError 8)) := by decide

theorem test_illegal_header : answer (State.initial cfgA) [0x16] = some (.fault (.illegalCommand 0x16)) := by
  decide

theorem test_construction_of_a_bad_topology :
    constructionAnswer { cfgA with locPerChip := 64 } = some (.specMismatchError 128 64 10) := by decide

theorem test_construction_with_one_decoder_input :
    constructionAnswer { cfgA with bytesPerChip := 512, locPerChip := 512 } = some (.arityError 1) := by decide

theorem test_preload_expands :
    (AsmLine.preload 0 [0x3412, 0x7856]).expand cfgB = [.memWrite 0 0x3412, .memWrite 2 0x7856] := by decide

/-! ### Assembly text (30_encoding.md R102 and R105, the programs of 95_test_vectors.md section 4) -/

theorem test_assemble_memWrite :
    assemble cfgA ["MEM_WRITE 0x0000, 0x4D".toList] = some [0x30, 0x00, 0xCD, 0x00] := by decide

theorem test_assemble_ctrlSend :
    assemble cfgA ["CTRL_SEND \"READ\", true   ; answers for ALATCH = 3".toList] =
      some [0x03, 0x04, 0x52, 0x45, 0x41, 0x44, 0x01] := by decide

theorem test_assemble_cascadeAnd :
    assemble cfgA ["CASCADE_AND [1, 1, 0]".toList] = some [0x23, 0x03, 0x01, 0x01, 0x00] := by decide

theorem test_assemble_defaults_and_keys :
    assemble cfgA ["IP_INC IP".toList, "ADDR_SEND \"key\", 5".toList, "".toList] =
      some [0x12, 0x00, 0x01, 0x01, 0x05] := by decide

theorem test_assemble_preload :
    assemble cfgA ["PRELOAD 0, [0x4D, 0x4F]".toList] =
      some [0x30, 0x00, 0xCD, 0x00, 0x30, 0x01, 0xCF, 0x00] := by decide

theorem test_assemble_negative_and_lower_case :
    assemble cfgA ["SET_OFFSET IP, -1".toList] = some [0x10, 0x00, 0x7F] ∧
    assemble cfgA ["fetch".toList] = none ∧ assemble cfgA ["IP_INC IP, -1".toList] = none := by decide

/-- 30_encoding.md R92: a name has at most 255 bytes. -/
theorem test_assemble_name_of_256_bytes_refused :
    assembleLine cfgA ("CTRL_SEND \"".toList ++ List.replicate 256 'A' ++ "\", 1".toList) = none := by
  decide +kernel

theorem test_assemble_name_of_255_bytes_accepted :
    assembleLine cfgA ("CTRL_SEND \"".toList ++ List.replicate 255 'A' ++ "\", 1".toList) =
      some [.ctrlSend (List.replicate 255 0x41) 1] := by
  decide +kernel

/-! ### Witnesses: states and operands that meet each obligation's hypotheses, clause by clause -/

theorem validA : ConfigValid cfgA := ⟨rfl, .inl rfl, by decide, by decide, by decide, by decide, by decide⟩
theorem validB : ConfigValid cfgB := ⟨rfl, .inr (.inl rfl), by decide, by decide, by decide, by decide, by decide⟩
theorem validP : ConfigValid cfgP := ⟨rfl, .inl rfl, by decide, by decide, by decide, by decide, by decide⟩
theorem validRegs : ConfigValid cfgRegs :=
  ⟨rfl, .inl rfl, by decide, by decide, by decide, by decide, by decide⟩
theorem validBig : ConfigValid cfgBig :=
  ⟨rfl, .inl rfl, by decide, by decide +kernel, by decide, by decide +kernel, by decide +kernel⟩

/-- A machine that has run for a while: registers, a queue, memory and latches that are not their reset values. -/
def busy : State :=
  { State.initial cfgRegs with
    ip := 0xFFFF, seg := 0xFFFF, p := [0, 0xFFFF], segs := [0xFFFF, 0], queue := [1, 2, 3, 4, 5, 255],
    mem := [(0, 1), (1023, 2)], alatch := some 7, dlatch := some 9, stream := [0x40] }

theorem witness_State_Inv : busy.Inv :=
  ⟨validRegs, by decide, by decide, by decide, by decide, by decide, by decide, by decide, by decide, by decide,
    by decide, by decide, by decide⟩

theorem witness_EncodedInstructionDecodesToItself :
    Instr.wellFormed (.ctrlSend (List.replicate 255 0x41) 1) = true := test_wellFormed_name_of_255_bytes_accepted

theorem witness_DecodedBytesAreTheEncoding :
    decode [0x10, 0x00, 0x7F, 0x41] = .ok (.setOffset 0 (-1), [0x41]) := by rfl

theorem witness_PreloadExpandsToConsecutiveWrites : ([5, 6] : List Int)[1]? = some 6 := by decide

theorem witness_StepRunsTheDecodedCommand : decode busy.stream = .ok (.fetch, []) := by rfl

theorem witness_StepWithoutCommandChangesNothing : State.reset.stream = [] := by decide

theorem witness_UnassignedHeaderRaisesIllegalCommand :
    (State.reset.setStream [0x00]).fault = none ∧ (State.reset.setStream [0x00]).stream = [0x00] ∧
    0x50 ≤ (0x50 : Byte).toNat ∧ (0x42 : Byte) ∉ opcodes ∧ (0x16 : Byte) ∉ opcodes := by decide

theorem witness_BytesThatEncodeNoCommandAreIllegal :
    (∀ (i : Instr) (rest : List Byte), i.wellFormed = true → [(0x00 : Byte)] ≠ encode i ++ rest) ∧
    (∀ (i : Instr) (rest : List Byte), i.wellFormed = true → [(0x21 : Byte), 0x01] ≠ encode i ++ rest) := by
  constructor <;> intro i rest _ <;> cases i <;> simp [encode, Instr.opcode, Instr.operandBytes]

theorem witness_HaltedMachineAnswersItsFault :
    ∃ s : State, s.fault = some (.indexError 8) ∧ s.stream ≠ [] :=
  ⟨{ busy with fault := some (.indexError 8) }, by decide⟩

theorem witness_CommandRaisesOnlyItsListedFaults :
    ∃ t, ConfigValid State.reset.cfg ∧ State.reset.fault = none ∧
      exec (.memWrite 1024 300) State.reset = .next t ∧ t.fault = some (.addressOutOfRangeError 1024) :=
  ⟨_, validA, rfl, rfl, by decide⟩

theorem witness_NoChipSelectedErrorIsUnreachable :
    ∃ t, State.reset.fault = none ∧ exec (.decLookup 7) State.reset = .next t := ⟨_, rfl, rfl⟩

theorem witness_CommandReturnsAValueOfItsKind :
    (∃ t, exec (.decOnehot 7) State.reset = .next t ∧ t.fault = none) ∧
    (∃ t, exec (.decOnehot 8) State.reset = .next t ∧ t.fault = some (.indexError 8)) :=
  ⟨⟨_, rfl, by decide⟩, ⟨_, rfl, by decide⟩⟩

theorem witness_AddrSendLatchesTheAddress : State.reset.fault = none ∧ busy.fault = none := by decide

theorem witness_DataSendLatchesTheDataOnly : State.reset.fault = none ∧ busy.fault = none := by decide

/-- An X86 machine whose address bus holds `a`. -/
def addressed (a : Nat) : State := { State.initial cfgA with alatch := some a }

/-- One line per clause: an unknown name, a payload that is no bit, WRITE, MEMORY_IO, READ false, READ with no
address, READ of the first address past the chips, READ of the last chip. -/
theorem witness_CtrlSendFollowsItsRule :
    ConfigValid (addressed 8).cfg ∧ (addressed 8).fault = none ∧ ConfigValid (addressed 7).cfg ∧
    (addressed 7).fault = none ∧ ConfigValid State.reset.cfg ∧ State.reset.fault = none ∧
    ([0x72, 0x65, 0x61, 0x64] : Name) ∉ [readName, writeName, memoryIoName] ∧
    (readName ∈ [readName, writeName, memoryIoName] ∧ (2 : Byte) ≠ 0 ∧ (2 : Byte) ≠ 1) ∧
    State.reset.alatch = none ∧
    ((addressed 8).alatch = some 8 ∧ (addressed 8).cfg.numberOfChips ≤ 8) ∧
    ((addressed 7).alatch = some 7 ∧ 7 < (addressed 7).cfg.numberOfChips) :=
  ⟨validA, rfl, validA, rfl, validA, rfl, by decide, by decide, by decide, by decide, by decide⟩

/-- No address, the first address past the chips, the last chip. -/
theorem witness_ReadResponseFollowsItsRule :
    ConfigValid State.reset.cfg ∧ State.reset.alatch = none ∧
    (ConfigValid (addressed 8).cfg ∧ (addressed 8).alatch = some 8 ∧ (addressed 8).cfg.numberOfChips ≤ 8) ∧
    (ConfigValid (addressed 7).cfg ∧ (addressed 7).alatch = some 7 ∧ 7 < (addressed 7).cfg.numberOfChips) :=
  ⟨validA, rfl, ⟨validA, by decide⟩, ⟨validA, by decide⟩⟩

/-- The registers of `busy`: 0 IP, 1 SEG, 2 and 3 pointers, 4 and 5 segments, 6 none. -/
theorem witness_RegisterNumbersFollowTheFile :
    busy.Inv ∧ 1 < busy.cfg.nptr ∧ 1 < busy.cfg.nseg ∧ 2 + busy.cfg.nptr + busy.cfg.nseg ≤ 6 ∧
    busy.pointer 3 = some 0xFFFF ∧ busy.segment 4 = some 0xFFFF ∧ busy.pointer 4 = none ∧ busy.segment 6 = none :=
  ⟨witness_State_Inv, by decide⟩

theorem witness_SetOffsetFollowsItsRule :
    busy.fault = none ∧ (busy.pointer 1 = none ∧ busy.pointer 4 = none) ∧
    (busy.pointer 3 ≠ none ∧ (busy.cfg.mode.maxOffset : Int) < 0x10000) ∧
    (busy.pointer 0 ≠ none ∧ (-1 : Int) < 0) ∧
    (busy.pointer 2 ≠ none ∧ (0 : Int) ≤ 0xFFFF ∧ (0xFFFF : Int) ≤ (busy.cfg.mode.maxOffset : Int)) := by decide

theorem witness_GetOffsetFollowsItsRule :
    busy.fault = none ∧ busy.pointer 5 = none ∧ busy.pointer 3 = some 0xFFFF ∧ busy.Inv :=
  ⟨by decide, by decide, by decide, witness_State_Inv⟩

theorem witness_IpIncFollowsItsRule :
    busy.fault = none ∧ (1 : Nat) ≠ 0 ∧ busy.cfg.mode.maxOffset < busy.ip + 1 ∧
    busy.ip + 0 ≤ busy.cfg.mode.maxOffset := by decide

theorem witness_RepeatedIncrementsAddUp :
    ∃ s : State, s.fault = none ∧ s.ip + 2 ≤ s.cfg.mode.maxOffset ∧
      s.stream = (List.replicate 2 (encode (.ipInc 0 1))).flatten :=
  ⟨{ State.reset with ip := 0xFFFD, stream := [0x12, 0x00, 0x01, 0x12, 0x00, 0x01] }, by decide⟩

theorem witness_IpResetFollowsItsRule : busy.fault = none ∧ (1 : Nat) ≠ 0 ∧ busy.ip ≠ 0 := by decide

theorem witness_SetBaseFollowsItsRule :
    busy.fault = none ∧ (busy.segment 0 = none ∧ busy.segment 3 = none) ∧
    (busy.segment 4 ≠ none ∧ (0xFFFF : Int) < 0x10000) ∧ (busy.segment 1 ≠ none ∧ (-1 : Int) < 0) ∧
    (busy.segment 5 ≠ none ∧ (0 : Int) ≤ 0xFFFF) := by decide

theorem witness_GetBaseFollowsItsRule :
    busy.fault = none ∧ busy.segment 0 = none ∧ busy.segment 4 = some 0xFFFF ∧ busy.Inv :=
  ⟨by decide, by decide, by decide, witness_State_Inv⟩

theorem witness_OnlyFourCommandsMoveIp :
    (∃ t, exec .fetch State.reset = .next t ∧ t.ip ≠ State.reset.ip) ∧
    (∃ t, exec (.ipInc 0 1) State.reset = .next t ∧ t.ip ≠ State.reset.ip) ∧
    (∃ t, exec (.ipReset 0) busy = .next t ∧ t.ip ≠ busy.ip) ∧
    (∃ t, exec (.setOffset 0 7) State.reset = .next t ∧ t.ip ≠ State.reset.ip) :=
  ⟨⟨_, rfl, by decide⟩, ⟨_, rfl, by decide⟩, ⟨_, rfl, by decide⟩, ⟨_, rfl, by decide⟩⟩

theorem witness_OnlySetCommandsWriteTheOtherRegisters :
    (∃ t, exec (.setOffset 3 1) busy = .next t ∧ t.p ≠ busy.p) ∧
    (∃ t, exec (.setBase 1 1) busy = .next t ∧ t.seg ≠ busy.seg) ∧
    (∃ t, exec (.setBase 4 1) busy = .next t ∧ t.segs ≠ busy.segs) :=
  ⟨⟨_, rfl, by decide⟩, ⟨_, rfl, by decide⟩, ⟨_, rfl, by decide⟩⟩

/-- The source's image of 0x1234 in a 16-bit register is 34 12 (10_state.md R34). -/
theorem witness_RegisterImageIsLittleEndian :
    1 < 16 / 8 ∧ registerImage 16 0x1234 = [0x34, 0x12] := by decide

theorem witness_NotGateFollowsItsTable : busy.fault = none ∧ (2 : Byte) ≠ 0 ∧ (2 : Byte) ≠ 1 := by decide

theorem witness_AndGateFollowsItsTable :
    busy.fault = none ∧ ((3 : Byte) ≠ 0 ∧ (3 : Byte) ≠ 1) ∧
    (((1 : Byte) = 0 ∨ (1 : Byte) = 1) ∧ (2 : Byte) ≠ 0 ∧ (2 : Byte) ≠ 1) := by decide

theorem witness_OrGateFollowsItsTable :
    busy.fault = none ∧ ((255 : Byte) ≠ 0 ∧ (255 : Byte) ≠ 1) ∧
    (((0 : Byte) = 0 ∨ (0 : Byte) = 1) ∧ (2 : Byte) ≠ 0 ∧ (2 : Byte) ≠ 1) := by decide

theorem witness_CascadeAndFollowsItsRule :
    busy.fault = none ∧ ([2] : List Byte).length < 2 ∧
    (2 ≤ ([1, 2, 3] : List Byte).length ∧ ([1, 2, 3] : List Byte) = [1] ++ 2 :: [3] ∧
      (∀ x ∈ ([1] : List Byte), x = 0 ∨ x = 1) ∧ (2 : Byte) ≠ 0 ∧ (2 : Byte) ≠ 1) ∧
    (2 ≤ ([1, 0] : List Byte).length ∧ ∀ x ∈ ([1, 0] : List Byte), x = 0 ∨ x = 1) := by decide

theorem witness_TruthTableEnumeratesEveryPattern :
    busy.fault = none ∧ ([true, false] : List Bit).length = 2 ∧
    (truthTableRows 2)[2]? = some [true, false] := by decide

theorem witness_DecodeTermSelectsItsOwnRow :
    ConfigValid cfgA ∧ 7 < cfgA.numberOfChips ∧ ([true, false, true] : List Bit).length = cfgA.chipSelectBits ∧
    0 < cfgA.numberOfChips := ⟨validA, by decide⟩

theorem witness_DecLookupFollowsItsRule :
    State.reset.fault = none ∧ (-1 : Int) < 0 ∧ (State.reset.cfg.numberOfChips : Int) ≤ 8 ∧
    (7 : Int) < (State.reset.cfg.numberOfChips : Int) := by decide

theorem witness_DecOnehotFollowsItsRule :
    ConfigValid State.reset.cfg ∧ State.reset.fault = none ∧ (-1 : Int) < 0 ∧
    (State.reset.cfg.numberOfChips : Int) ≤ 8 ∧ (7 : Int) < (State.reset.cfg.numberOfChips : Int) :=
  ⟨validA, by decide⟩

/-- A 2-byte-word machine: 2046 is its last word address, 2047 leaves the buffer, 2048 is outside it. -/
def wordsOfTwo : State := State.initial cfgB

theorem witness_RawStoreFollowsItsRule :
    wordsOfTwo.fault = none ∧ (-1 : Int) < 0 ∧
    (wordsOfTwo.cfg.totalBytes : Int) < 2047 + wordsOfTwo.cfg.wordBytes ∧
    (2046 : Int) + wordsOfTwo.cfg.wordBytes ≤ (wordsOfTwo.cfg.totalBytes : Int) ∧
    (2 ^ (8 * wordsOfTwo.cfg.wordBytes) : Int) ≤ 0x10000 ∧
    (0xFFFF : Int) < (2 ^ (8 * wordsOfTwo.cfg.wordBytes) : Int) := by decide

theorem witness_MemWriteFollowsItsRule :
    wordsOfTwo.fault = none ∧ (wordsOfTwo.cfg.totalBytes : Int) ≤ 2048 ∧
    ((2047 : Int) < (wordsOfTwo.cfg.totalBytes : Int) ∧
      (wordsOfTwo.cfg.totalBytes : Int) < 2047 + wordsOfTwo.cfg.wordBytes) ∧
    ((2046 : Int) + wordsOfTwo.cfg.wordBytes ≤ (wordsOfTwo.cfg.totalBytes : Int) ∧
      (2 ^ (8 * wordsOfTwo.cfg.wordBytes) : Int) ≤ 0x10000) ∧
    (0xFFFF : Int) < (2 ^ (8 * wordsOfTwo.cfg.wordBytes) : Int) := by decide

theorem witness_RawLoadFollowsItsRule :
    wordsOfTwo.fault = none ∧ (wordsOfTwo.cfg.totalBytes : Int) < 2047 + wordsOfTwo.cfg.wordBytes ∧
    (2046 : Int) + wordsOfTwo.cfg.wordBytes ≤ (wordsOfTwo.cfg.totalBytes : Int) := by decide

theorem witness_WordReadsBackAsWritten :
    ∃ s t : State, (0xFFFF : Nat) < 2 ^ (8 * 2) ∧
      (∀ i, i < 2 → t.byteAt (4 + i) = (s.memWrite 4 2 0xFFFF).byteAt (4 + i)) :=
  ⟨wordsOfTwo, wordsOfTwo.memWrite 4 2 0xFFFF, by decide, fun _ _ => rfl⟩

theorem witness_ReadPathStaysInTheBuffer : ConfigValid cfgB ∧ 7 < cfgB.numberOfChips := ⟨validB, by decide⟩

theorem witness_OnlyStoresWriteMemory :
    (∃ t, exec (.memWrite 0 2) busy = .next t ∧ t.byteAt 0 ≠ busy.byteAt 0) ∧
    (∃ t, exec (.rawStore 1023 3) busy = .next t ∧ t.byteAt 1023 ≠ busy.byteAt 1023) :=
  ⟨⟨_, rfl, by decide⟩, ⟨_, rfl, by decide⟩⟩

/-- In CFG_A FETCH reaches the bytes 0 to 7: the two machines differ in byte 8. -/
theorem witness_FetchSeesOnlyTheReachableBytes :
    ∃ s u t : State, ConfigValid s.cfg ∧ u = { s with mem := u.mem } ∧ u.mem ≠ s.mem ∧
      (∀ a, a < min s.cfg.numberOfChips (2 ^ s.cfg.addressingDepth) - 1 + s.cfg.wordBytes →
        u.byteAt a = s.byteAt a) ∧ exec .fetch s = .next t := by
  refine ⟨State.reset, { State.reset with mem := [(8, 1)] }, _, validA, rfl, by decide, fun a ha => ?_, rfl⟩
  have h8 : a < 8 := ha
  have hne : ¬ 8 = a := by omega
  simp [State.byteAt, Memory.get, hne, State.reset, State.initial]

theorem witness_FetchFollowsItsRule :
    (∃ s : State, ConfigValid s.cfg ∧ s.fault = none ∧ s.cfg.mode ≠ .realMode) ∧
    (∃ s : State, ConfigValid s.cfg ∧ s.fault = none ∧ s.cfg.mode = .realMode ∧
      s.cfg.numberOfChips ≤ s.seg * 16 + s.ip) ∧
    (∃ s : State, ConfigValid s.cfg ∧ s.fault = none ∧ s.cfg.mode = .realMode ∧
      s.seg * 16 + s.ip < s.cfg.numberOfChips ∧ s.ip + 1 ≤ s.cfg.mode.maxOffset ∧ s.queue.length < 6) ∧
    (∃ s : State, ConfigValid s.cfg ∧ s.fault = none ∧ s.cfg.mode = .realMode ∧
      s.seg * 16 + s.ip < s.cfg.numberOfChips ∧ s.ip + 1 ≤ s.cfg.mode.maxOffset ∧ ¬ s.queue.length < 6) ∧
    (∃ s : State, ConfigValid s.cfg ∧ s.fault = none ∧ s.cfg.mode = .realMode ∧
      s.seg * 16 + s.ip < s.cfg.numberOfChips ∧ s.cfg.mode.maxOffset < s.ip + 1) :=
  ⟨⟨State.initial cfgP, validP, by decide⟩,
    ⟨{ State.initial cfgA with ip := 8 }, validA, by decide⟩,
    ⟨{ State.initial cfgA with ip := 7 }, validA, by decide⟩,
    ⟨{ State.initial cfgA with ip := 6, queue := [0, 1, 2, 3, 4, 5] }, validA, by decide⟩,
    ⟨{ State.initial cfgBig with ip := 0xFFFF }, validBig, by decide⟩⟩

theorem witness_DecodeFollowsItsRule :
    State.reset.fault = none ∧ State.reset.queue = [] ∧ busy.fault = none ∧
    busy.queue = 1 :: [2, 3, 4, 5, 255] := by decide

/-- A collaborator that encodes one text, whatever DEC is: the text DEC gives for 77. -/
def oneTextEncoder (t : Text) (b : Nat) : Nat := if t = Config.dec 77 b then 77 else 2 ^ b

theorem witness_PreloadedTextIsFetchedAndDecoded :
    ∃ (c : Config) (s : State) (text : Text), Config.RoundTrip oneTextEncoder ∧ construct c = .next s ∧
      c.mode = .realMode ∧ c.wordBytes = 1 ∧ oneTextEncoder text 8 < 256 := by
  refine ⟨cfgA, _, Config.dec 77 8, fun t b _ h => ?_, rfl, rfl, rfl, by simp [oneTextEncoder]⟩
  unfold oneTextEncoder at h ⊢
  split
  · rename_i ht
    exact ht.symm
  · rename_i ht
    rw [if_neg ht] at h
    omega

theorem witness_QueueChangesOnlyAtItsEnds :
    (∃ t, exec .fetch State.reset = .next t ∧ t.queue ≠ State.reset.queue) ∧
    (∃ t, exec .decode busy = .next t ∧ t.queue ≠ busy.queue) := by
  refine ⟨⟨_, rfl, ?_⟩, ⟨_, rfl, by decide⟩⟩
  exact List.cons_ne_nil _ _

theorem witness_LatchesChangeOnlyThroughDrives :
    (∃ t, exec (.addrSend 5) State.reset = .next t ∧ t.alatch ≠ State.reset.alatch) ∧
    (∃ t, exec (.dataSend 5) State.reset = .next t ∧ t.dlatch ≠ State.reset.dlatch) ∧
    (∃ t, exec (.ctrlSend readName 0) State.reset = .next t ∧ t.ctrl.read ≠ State.reset.ctrl.read) ∧
    (∃ t, exec (.ctrlSend writeName 1) State.reset = .next t ∧ t.ctrl.write ≠ State.reset.ctrl.write) ∧
    (∃ t, exec (.ctrlSend memoryIoName 1) State.reset = .next t ∧
      t.ctrl.memoryIo ≠ State.reset.ctrl.memoryIo) :=
  ⟨⟨_, rfl, by decide⟩, ⟨_, rfl, by decide⟩, ⟨_, rfl, by decide⟩, ⟨_, rfl, by decide⟩, ⟨_, rfl, by decide⟩⟩

theorem witness_SegmentBaseLimitsFetch :
    (∃ s t : State, s.fault = none ∧ s.cfg.mode = .realMode ∧ exec .fetch s = .next t ∧ t.fault = none) ∧
    (∃ s t : State, s.fault = none ∧ s.cfg.mode = .realMode ∧ exec .fetch s = .next t ∧
      s.cfg.arch = .x86 ∧ s.cfg.numberOfChips ≤ 16 ∧ 1 ≤ s.seg) :=
  ⟨⟨{ State.reset with ip := 7 }, _, rfl, rfl, rfl, by decide⟩,
    ⟨{ State.reset with seg := 1 }, _, rfl, rfl, rfl, by decide⟩⟩

/-- Each clause's configuration, from 95_test_vectors.md section 3.8: another architecture, a 3-byte word, a zero,
a non-dividing and a non-fitting topology, then 2 and 4 chips. -/
theorem witness_ConstructionChecksTheConfiguration :
    (∃ c : Config, c.arch = .other "ARM") ∧
    (∃ c : Config, c.arch = .x86 ∧ c.wordBytes ∉ [1, 2, 4]) ∧
    (∃ c : Config, c.arch = .x86 ∧ c.wordBytes ∈ [1, 2, 4] ∧ c.bytesPerChip = 0) ∧
    (∃ c : Config, c.arch = .x86 ∧ c.wordBytes ∈ [1, 2, 4] ∧ c.totalBytes % c.bytesPerChip ≠ 0) ∧
    (∃ c : Config, c.arch = .x86 ∧ c.wordBytes ∈ [1, 2, 4] ∧
      c.chipSelectBits + c.addressingDepth ≠ c.addressLines) ∧
    (∃ c : Config, c.arch = .x86 ∧ c.wordBytes ∈ [1, 2, 4] ∧ c.bytesPerChip ≠ 0 ∧
      c.totalBytes % c.bytesPerChip = 0 ∧ c.numberOfChips = 2 ^ 1 ∧ c.locPerChip = 2 ^ 9 ∧
      1 + 9 = c.addressLines) ∧
    (∃ c : Config, c.arch = .x86 ∧ c.wordBytes ∈ [1, 2, 4] ∧ c.bytesPerChip ≠ 0 ∧
      c.totalBytes % c.bytesPerChip = 0 ∧ c.numberOfChips = 2 ^ 2 ∧ c.locPerChip = 2 ^ 8 ∧
      2 + 8 = c.addressLines) :=
  ⟨⟨{ cfgA with arch := .other "ARM" }, rfl⟩, ⟨{ cfgA with wordBytes := 3 }, by decide⟩,
    ⟨{ cfgA with bytesPerChip := 0 }, by decide⟩, ⟨{ cfgA with bytesPerChip := 100 }, by decide⟩,
    ⟨{ cfgA with locPerChip := 64 }, by decide⟩,
    ⟨{ cfgA with bytesPerChip := 512, locPerChip := 512 }, by decide⟩, ⟨cfgC, by decide⟩⟩

theorem witness_ConstructedMachinesHaveValidConfigurations : ∃ s, construct cfgC = .next s := ⟨_, rfl⟩

theorem witness_ConstructionLeavesTheResetState :
    ∃ (c : Config) (s : State), construct c = .next s ∧ c.initBytes[0]? = some 0x5A :=
  ⟨{ cfgA with initBytes := [0x5A] }, _, rfl, rfl⟩

theorem witness_ConstructionEstablishesTheInvariant : ∃ s, construct cfgB = .next s := ⟨_, rfl⟩

theorem witness_EveryStepKeepsTheInvariant : ∃ t, busy.Inv ∧ step busy = .next t ∧ t ≠ busy :=
  ⟨_, witness_State_Inv, rfl, by decide⟩

theorem witness_NoCommandStopsAConstructedMachine : busy.Inv := witness_State_Inv

theorem witness_ConfigurationNeverChanges : ∃ t, step busy = .next t := ⟨_, rfl⟩

end Sys2Proof.Tests
end

/-! ## Progress: every command of a machine with a valid configuration has a next state -/

namespace Sys2Proof.Machine

/-! ### The read path stays in the buffer (20_memory.md R81) -/

/-- The read path reads below `2^DEPTH` (10_state.md R21, 43_memory_ops.md R184). -/
theorem internalAddress_lt (c : Config) (a : Nat) : internalAddress c a < 2 ^ c.addressingDepth :=
  Nat.and_lt_two_pow a (Nat.sub_lt (Nat.two_pow_pos _) Nat.one_pos)

/-- Of a valid configuration there is a whole word for every location the mask can reach, since DEPTH is at most
the number of address lines (10_state.md R21). -/
theorem ConfigValid.pow_depth_mul_wordBytes_le {c : Config} (h : ConfigValid c) :
    2 ^ c.addressingDepth * c.wordBytes ≤ c.totalBytes :=
  Nat.mul_le_mul_right _ (Nat.pow_le_pow_right Nat.two_pos (h.lines ▸ Nat.le_add_left _ _))

/-- A word has at least one byte (20_memory.md R70). -/
theorem ConfigValid.wordBytes_pos {c : Config} (h : ConfigValid c) : 0 < c.wordBytes := by
  have hw := h.wordBytes
  omega

/-- The word the read path reads lies in the buffer, whatever the address driven (20_memory.md R81): it starts at
location `A & MASK`, which is below that location's own word. -/
theorem ConfigValid.readPath_in_buffer {c : Config} (h : ConfigValid c) (a : Nat) :
    internalAddress c a + c.wordBytes ≤ c.totalBytes := by
  calc internalAddress c a + c.wordBytes
      ≤ internalAddress c a * c.wordBytes + c.wordBytes :=
        Nat.add_le_add_right (Nat.le_mul_of_pos_right _ h.wordBytes_pos) _
    _ = (internalAddress c a + 1) * c.wordBytes := (Nat.succ_mul _ _).symm
    _ ≤ 2 ^ c.addressingDepth * c.wordBytes := Nat.mul_le_mul_right _ (internalAddress_lt c a)
    _ ≤ c.totalBytes := h.pow_depth_mul_wordBytes_le

/-! ### Outcomes that are a next state -/

/-- The outcome is a next state: no model fault and no refusal. -/
def Answers (o : Outcome) : Prop := ∃ t, o = .next t

@[simp] theorem ret_answers (r : Result) (s : State) : Answers (ret r s) := ⟨_, rfl⟩

/-- Taking a fault is a next state (60_exceptions.md R230). -/
@[simp] theorem raise_answers (f : CoreFault) (s : State) : Answers (raise f s) := ⟨_, rfl⟩

/-- A halted machine answers its recorded fault (60_exceptions.md R231), so only a running one's answer is at stake. -/
theorem issue_answers {s : State} {body : Outcome} (h : Answers body) : Answers (issue s body) := by
  cases hf : s.fault with
  | none => rwa [issue_running hf]
  | some f => exact ⟨_, issue_halted hf body⟩

@[simp] theorem storeWord_answers (s : State) (a v : Int) : Answers (storeWord s a v) := by
  rcases storeWord_cases s a v with ⟨_, e⟩ | ⟨_, _, _, e⟩ | ⟨_, _, _, _, e⟩ <;> simp [e]

@[simp] theorem twoInputGate_answers (g : Bit → Bit → Bit) (a b : Byte) (s : State) :
    Answers (twoInputGate g a b s) := by
  unfold twoInputGate
  split
  · exact raise_answers _ _
  · split <;> simp

/-! ### The two commands with a read response -/

/-- CTRL_SEND's one outcome without a next state is a read outside the buffer. -/
theorem execCtrlSend_answers {s : State} (hc : ConfigValid s.cfg) (name : Name) (v : Byte) :
    Answers (execCtrlSend name v s) := by
  cases hf : s.fault with
  | some f => exact ⟨_, issue_halted hf _⟩
  | none =>
    rcases execCtrlSend_cases hf name v with ⟨_, e⟩ | ⟨_, _, e⟩ | ⟨_, _, _, _, _, e⟩ |
      ⟨_, _, _, _, _, e⟩ | ⟨a, _, _, _, _, outside, _⟩ | ⟨_, _, _, _, _, _, e⟩
    · simp [e]
    · simp [e]
    · simp [e]
    · simp [e]
    · exact absurd (hc.readPath_in_buffer a) (Nat.not_le.2 outside)
    · simp [e]

/-- FETCH's one outcome without a next state is a read outside the buffer. -/
theorem execFetch_answers {s : State} (hc : ConfigValid s.cfg) : Answers (execFetch s) := by
  cases hf : s.fault with
  | some f => exact ⟨_, issue_halted hf _⟩
  | none =>
    rcases execFetch_cases hf with ⟨_, e⟩ | ⟨_, _, e⟩ | ⟨_, _, _, e⟩ | ⟨_, _, _, outside, _⟩ |
      ⟨_, _, _, _, _, e⟩ | ⟨_, _, _, _, _, e⟩
    · simp [e]
    · simp [e]
    · simp [e]
    · exact absurd (hc.readPath_in_buffer (physicalAddress s)) (Nat.not_le.2 outside)
    · simp [e]
    · simp [e]

/-! ### Every command and every step -/

/-- Every command runs to completion or to a fault that is a next state (00_scope.md R6): all its ends are `ret` and
`raise`, but for the two read responses. -/
theorem exec_answers {s : State} (hc : ConfigValid s.cfg) (i : Instr) : Answers (exec i s) := by
  cases i with
  | ctrlSend name v => exact execCtrlSend_answers hc name v
  | fetch => exact execFetch_answers hc
  | addrSend a => exact issue_answers (ret_answers _ _)
  | dataSend d => exact issue_answers (ret_answers _ _)
  | truthTable n => exact issue_answers (ret_answers _ _)
  | andGate a b => exact issue_answers (twoInputGate_answers _ a b s)
  | orGate a b => exact issue_answers (twoInputGate_answers _ a b s)
  | rawStore a v => exact issue_answers (storeWord_answers s a v)
  | memWrite a v => exact issue_answers (by split <;> simp)
  | getOffset r => exact issue_answers (by split <;> simp)
  | getBase r => exact issue_answers (by split <;> simp)
  | ipReset r => exact issue_answers (by split <;> simp)
  | notGate a => exact issue_answers (by split <;> simp)
  | decLookup a => exact issue_answers (by split <;> simp)
  | decOnehot x => exact issue_answers (by split <;> simp)
  | rawLoad a => exact issue_answers (by split <;> simp)
  | decode => exact issue_answers (by split <;> simp)
  | setOffset r v => exact issue_answers (by split <;> [simp; (split <;> simp)])
  | ipInc r k => exact issue_answers (by split <;> [simp; (split <;> simp)])
  | setBase r v => exact issue_answers (by split <;> [simp; (split <;> simp)])
  | cascadeAnd bits => exact issue_answers (by split <;> [simp; (split <;> simp)])

/-- A step is idle, runs a command or rejects the bytes (00_scope.md R6, 30_encoding.md R97): all are next states. -/
theorem step_answers {s : State} (hc : ConfigValid s.cfg) : Answers (step s) := by
  unfold step
  split
  · exact ⟨s, rfl⟩
  · rename_i i rest _
    exact exec_answers (s := s.setStream rest) hc i
  · exact issue_answers (raise_answers _ _)

/-- Settles O57: under the invariant the configuration is valid, so the read path stays in the buffer. -/
theorem noCommandStopsAConstructedMachine : Obligations.NoCommandStopsAConstructedMachine :=
  fun _ hinv => ⟨exec_answers hinv.config, step_answers hinv.config⟩

end Sys2Proof.Machine

/-! ## The state: what a command changes before it ends, the invariant of 10_state.md, and the register file -/

namespace Sys2Proof.Machine

/-! ### What a command changes before it ends -/

/-- The name of a control line (10_state.md R23). -/
def Signal.name : Signal → Name
  | .read => readName
  | .write => writeName
  | .memoryIo => memoryIoName

theorem eq_name_of_signalOfName {a : Arch} {name : Name} {line : Signal}
    (h : signalOfName a name = some line) : name = line.name := by
  rcases (name_of_signalOfName h).2 with ⟨rfl, hn⟩ | ⟨rfl, hn⟩ | ⟨rfl, hn⟩ <;> exact hn

/-- `CommandUpdate i s u`: before it ends, command `i` can have turned a running machine `s` into `u`. Ending touches
only FAULT and the answer (00_scope.md R10, 60_exceptions.md R230), so a claim about any other field is a claim
about `u` (`exec_update`). -/
inductive CommandUpdate : Instr → State → State → Prop
  | unchanged (i : Instr) (s : State) : CommandUpdate i s s
  | address (a : Nat) (s : State) : CommandUpdate (.addrSend a) s (s.setAlatch a)
  | data (d : Nat) (s : State) : CommandUpdate (.dataSend d) s (s.setDlatch d)
  | control (line : Signal) (v : Byte) (level : Bool) (s : State) :
      CommandUpdate (.ctrlSend line.name v) s (s.setControl line level)
  | readWord (w : Nat) (s : State) :
      CommandUpdate (.ctrlSend readName 1) s ((s.setControl .read true).setDlatch w)
  | offset (r : Nat) {v : Int} {s : State} (hv : v ≤ s.cfg.mode.maxOffset) :
      CommandUpdate (.setOffset r v) s (s.setPointer r v.toNat)
  | ipAdvance {k : Nat} {s : State} (hk : s.ip + k ≤ s.cfg.mode.maxOffset) :
      CommandUpdate (.ipInc 0 k) s (s.setIp (s.ip + k))
  | ipClear (s : State) : CommandUpdate (.ipReset 0) s (s.setIp 0)
  | base (r : Nat) {v : Int} {s : State} (hv : v ≤ maxBase) :
      CommandUpdate (.setBase r v) s (s.setSegment r v.toNat)
  | store {i : Instr} {a v : Int} {s : State} (hi : i = .memWrite a v ∨ i = .rawStore a v) (ha : 0 ≤ a)
      (hb : a + s.cfg.wordBytes ≤ s.cfg.totalBytes) :
      CommandUpdate i s (s.memWrite a.toNat s.cfg.wordBytes v.toNat)
  | fetchBegun (s : State) : CommandUpdate .fetch s (beginFetch s)
  | fetchDriven (s : State) : CommandUpdate .fetch s ((beginFetch s).setControl .read true)
  | fetchQueued (s : State) : CommandUpdate .fetch s (queuedFetch s)
  | fetchDone {s : State} (hip : s.ip + 1 ≤ s.cfg.mode.maxOffset) :
      CommandUpdate .fetch s (((queuedFetch s).setIp (s.ip + 1)).setBiu .idle)
  | dequeue {s : State} {w : Nat} {q : List Nat} (hq : s.queue = w :: q) :
      CommandUpdate .decode s (s.setQueue q)

/-- How a command of `s` ends once the machine is `u`: in a fault, or, with an idle BIU if `s` had one, in a value. -/
def EndsAt (s u t : State) : Prop :=
  (∃ f, t = u.raised f) ∨ ((s.biu = .idle → u.biu = .idle) ∧ ∃ r, t = u.setResult r)

theorem EndsAt.raised (s u : State) (f : CoreFault) : EndsAt s u (u.raised f) := .inl ⟨f, rfl⟩

theorem EndsAt.setResult {s u : State} (h : s.biu = .idle → u.biu = .idle) (r : Result) :
    EndsAt s u (u.setResult r) := .inr ⟨h, r, rfl⟩

/-- `t` is an end of a command `i` of `s`. -/
def UpdatesAndEnds (i : Instr) (s t : State) : Prop := ∃ u, CommandUpdate i s u ∧ EndsAt s u t

/-- A fault before anything has changed. -/
theorem UpdatesAndEnds.raised (i : Instr) (s : State) (f : CoreFault) : UpdatesAndEnds i s (s.raised f) :=
  ⟨s, .unchanged i s, .raised s s f⟩

/-- A value, nothing changed. -/
theorem UpdatesAndEnds.answered (i : Instr) (s : State) (r : Result) : UpdatesAndEnds i s (s.setResult r) :=
  ⟨s, .unchanged i s, .setResult id r⟩

theorem StoreEffect.updatesAndEnds {i : Instr} {a v : Int} {s t : State} (hi : i = .memWrite a v ∨ i = .rawStore a v)
    (h : StoreEffect a v s t) : UpdatesAndEnds i s t := by
  rcases h with rfl | rfl | ⟨ha, hb, _, rfl⟩
  · exact .raised _ _ _
  · exact .raised _ _ _
  · exact ⟨_, .store hi ha hb, .setResult id _⟩

theorem GateEffect.updatesAndEnds (i : Instr) {a b : Byte} {s t : State} (h : GateEffect a b s t) :
    UpdatesAndEnds i s t := by
  rcases h with rfl | rfl | ⟨y, rfl⟩
  · exact .raised _ _ _
  · exact .raised _ _ _
  · exact .answered _ _ _

/-- Each listed effect of a command is an update and an end. -/
theorem CommandEffect.updatesAndEnds {i : Instr} {s t : State} (h : CommandEffect i s t) :
    UpdatesAndEnds i s t := by
  cases i with
  | addrSend a => subst h; exact ⟨_, .address a s, .setResult id _⟩
  | dataSend d => subst h; exact ⟨_, .data d s, .setResult id _⟩
  | ctrlSend name v =>
    rcases h with rfl | rfl | ⟨line, level, hl, rfl⟩ | ⟨a, rfl, rfl, _, _, rfl⟩ | ⟨w, rfl, rfl, rfl⟩
    · exact .raised _ _ _
    · exact .raised _ _ _
    · rw [eq_name_of_signalOfName hl]
      exact ⟨_, .control line v level s, .setResult (by simp) _⟩
    · exact ⟨_, .control .read 1 true s, .raised _ _ _⟩
    · exact ⟨_, .readWord w s, .setResult id _⟩
  | setOffset r v =>
    rcases h with rfl | rfl | ⟨_, hv, rfl⟩
    · exact .raised _ _ _
    · exact .raised _ _ _
    · exact ⟨_, .offset r hv, .setResult (by simp) _⟩
  | ipInc r k =>
    rcases h with rfl | rfl | ⟨rfl, hk, rfl⟩
    · exact .raised _ _ _
    · exact .raised _ _ _
    · exact ⟨_, .ipAdvance hk, .setResult id _⟩
  | ipReset r =>
    rcases h with rfl | ⟨rfl, rfl⟩
    · exact .raised _ _ _
    · exact ⟨_, .ipClear s, .setResult id _⟩
  | setBase r v =>
    rcases h with rfl | rfl | ⟨_, hv, rfl⟩
    · exact .raised _ _ _
    · exact .raised _ _ _
    · exact ⟨_, .base r hv, .setResult (by simp) _⟩
  | memWrite a v =>
    rcases h with rfl | h
    · exact .raised _ _ _
    · exact h.updatesAndEnds (.inl rfl)
  | rawStore a v => exact StoreEffect.updatesAndEnds (.inr rfl) h
  | fetch =>
    rcases h with rfl | ⟨_, rfl⟩ | ⟨_, rfl⟩ | ⟨_, rfl⟩ | ⟨_, hip, rfl⟩
    · exact .raised _ _ _
    · exact ⟨_, .fetchBegun s, .raised _ _ _⟩
    · exact ⟨_, .fetchDriven s, .raised _ _ _⟩
    · exact ⟨_, .fetchQueued s, .raised _ _ _⟩
    · exact ⟨_, .fetchDone hip, .setResult (fun _ => rfl) _⟩
  | decode =>
    rcases h with rfl | ⟨w, q, hq, rfl⟩
    · exact .answered _ _ _
    · exact ⟨_, .dequeue hq, .setResult id _⟩
  | andGate a b => exact GateEffect.updatesAndEnds _ h
  | orGate a b => exact GateEffect.updatesAndEnds _ h
  | cascadeAnd bits =>
    rcases h with rfl | ⟨e, _, rfl⟩ | ⟨y, rfl⟩
    · exact .raised _ _ _
    · exact .raised _ _ _
    · exact .answered _ _ _
  | truthTable n => subst h; exact .answered _ _ _
  | getOffset r | getBase r | notGate a | decLookup a | decOnehot a | rawLoad a =>
    rcases h with rfl | ⟨_, rfl⟩
    · exact .raised _ _ _
    · exact .answered _ _ _

/-- Up to FAULT and the answer, every next state of a command is one of its updates; a halted machine's is the
machine itself (60_exceptions.md R231). -/
theorem exec_update {i : Instr} {s t : State} (h : exec i s = .next t) :
    ∃ u f r, CommandUpdate i s u ∧ t = { u with fault := f, result := r } := by
  rcases exec_next h with ⟨f, _, rfl⟩ | ⟨_, effect⟩
  · exact ⟨s, _, _, .unchanged i s, rfl⟩
  · obtain ⟨u, hu, ⟨f, rfl⟩ | ⟨_, r, rfl⟩⟩ := effect.updatesAndEnds
    · exact ⟨u, _, _, hu, rfl⟩
    · exact ⟨u, _, _, hu, rfl⟩

/-! ### What each field's updates are -/

section
variable {i : Instr} {s u : State}

/-- Only SET_OFFSET writes a further pointer register (10_state.md R32). -/
theorem CommandUpdate.p_eq_or (h : CommandUpdate i s u) : u.p = s.p ∨ ∃ r v, i = .setOffset r v := by
  cases h with
  | offset r hv => exact .inr ⟨r, _, rfl⟩
  | _ => exact .inl (by simp)

/-- Only SET_BASE writes a segment register (10_state.md R33). -/
theorem CommandUpdate.segments_eq_or (h : CommandUpdate i s u) :
    (u.seg = s.seg ∧ u.segs = s.segs) ∨ ∃ r v, i = .setBase r v := by
  cases h with
  | base r hv => exact .inr ⟨r, _, rfl⟩
  | _ => exact .inl (by simp)

/-- The queue changes at its tail by FETCH and at its head by DECODE (10_state.md R41). -/
theorem CommandUpdate.queue_eq_or (h : CommandUpdate i s u) :
    u.queue = s.queue ∨
    (i = .fetch ∧ s.queue.length < Config.queueCapacity ∧ ∃ w, u.queue = s.queue ++ [w]) ∨
    (i = .decode ∧ ∃ w, s.queue = w :: u.queue) := by
  cases h with
  | fetchQueued | fetchDone hip =>
    by_cases room : s.queue.length < Config.queueCapacity
    · exact .inr (.inl ⟨rfl, room, fetchedWord s, by simp [room]⟩)
    · exact .inl (by simp [room])
  | dequeue hq => exact .inr (.inr ⟨rfl, _, hq⟩)
  | _ => exact .inl (by simp)

/-- ALATCH is driven by ADDR_SEND and by FETCH, each with its own address (40_bus.md R120, 44_cpu.md R201). -/
theorem CommandUpdate.alatch_eq_or (h : CommandUpdate i s u) :
    u.alatch = s.alatch ∨ (∃ a, i = .addrSend a ∧ u.alatch = some a) ∨
    (i = .fetch ∧ u.alatch = some (physicalAddress s)) := by
  cases h with
  | address a => exact .inr (.inl ⟨a, rfl, rfl⟩)
  | fetchBegun | fetchDriven | fetchQueued | fetchDone hip => exact .inr (.inr ⟨rfl, by simp⟩)
  | _ => exact .inl (by simp)

/-- DLATCH is driven by DATA_SEND, and by Memory's answer to FETCH and to READ driven true (40_bus.md R121 and
R122). -/
theorem CommandUpdate.dlatch_eq_or (h : CommandUpdate i s u) :
    u.dlatch = s.dlatch ∨ (∃ d, i = .dataSend d ∧ u.dlatch = some d) ∨
    ((i = .fetch ∨ i = .ctrlSend readName 1) ∧ ∃ w, u.dlatch = some w) := by
  cases h with
  | data d => exact .inr (.inl ⟨d, rfl, rfl⟩)
  | readWord w => exact .inr (.inr ⟨.inr rfl, w, rfl⟩)
  | fetchQueued | fetchDone hip => exact .inr (.inr ⟨.inl rfl, fetchedWord s, by simp⟩)
  | _ => exact .inl (by simp)

/-- CTRL changes at the one line that is driven: by a CTRL_SEND of its name, and READ by FETCH (40_bus.md R122,
44_cpu.md R201). -/
theorem CommandUpdate.ctrl_eq_or (h : CommandUpdate i s u) :
    u.ctrl = s.ctrl ∨ (i = .fetch ∧ u.ctrl = (s.setControl .read true).ctrl) ∨
    ∃ line v level, i = .ctrlSend line.name v ∧ u.ctrl = (s.setControl line level).ctrl := by
  cases h with
  | control line v level => exact .inr (.inr ⟨line, v, level, rfl, rfl⟩)
  | readWord w => exact .inr (.inr ⟨.read, 1, true, rfl, rfl⟩)
  | fetchDriven | fetchQueued | fetchDone hip => exact .inr (.inl ⟨rfl, by simp⟩)
  | _ => exact .inl (by simp)

end

/-- Settles O26: only SET_OFFSET's update reaches P, and only SET_BASE's SEG and S. -/
theorem onlySetCommandsWriteTheOtherRegisters : Obligations.OnlySetCommandsWriteTheOtherRegisters := by
  intro i s t h
  obtain ⟨u, _, _, hu, rfl⟩ := exec_update h
  refine ⟨fun hp => hu.p_eq_or.resolve_left hp, fun hs => hu.segments_eq_or.resolve_left ?_⟩
  rintro ⟨hseg, hsegs⟩
  exact hs.elim (· hseg) (· hsegs)

/-- Settles O47: only FETCH's and DECODE's updates reach QUEUE. -/
theorem queueChangesOnlyAtItsEnds : Obligations.QueueChangesOnlyAtItsEnds := by
  intro i s t h hq
  obtain ⟨u, _, _, hu, rfl⟩ := exec_update h
  exact hu.queue_eq_or.resolve_left hq

/-- Settles O48: each latch's updates are its drives, and a drive latches a value. -/
theorem latchesChangeOnlyThroughDrives : Obligations.LatchesChangeOnlyThroughDrives := by
  intro i s t h
  obtain ⟨u, _, _, hu, rfl⟩ := exec_update h
  refine ⟨fun ha => hu.alatch_eq_or.resolve_left ha, fun hd => ?_, ?_⟩
  · rcases hu.dlatch_eq_or.resolve_left hd with ⟨d, hi, hval⟩ | ⟨hi, w, hval⟩
    · exact ⟨by simp [hval], .inl ⟨d, hi, hval⟩⟩
    · exact ⟨by simp [hval], .inr hi⟩
  · rcases hu.ctrl_eq_or with hc | ⟨rfl, hc⟩ | ⟨line, v, level, rfl, hc⟩
    · simp [hc]
    · simp [hc]
    · cases line <;> simp [hc, Signal.name]

/-! ### The invariant -/

namespace State.Inv

section
variable {s : State}

/-! A drive, and taking bytes off the stream, touch nothing the invariant speaks of. -/

theorem setStream (h : s.Inv) (bs : List Byte) : (s.setStream bs).Inv := { h with }

theorem setAlatch (h : s.Inv) (a : Nat) : (s.setAlatch a).Inv := { h with }

theorem setDlatch (h : s.Inv) (d : Nat) : (s.setDlatch d).Inv := { h with }

theorem setControl (h : s.Inv) (line : Signal) (level : Bool) : (s.setControl line level).Inv := by
  cases line <;> exact { h with }

/-! The registers, the queue and the memory keep it where their own part of it holds. -/

theorem setIp (h : s.Inv) {v : Nat} (hv : v ≤ s.cfg.mode.maxOffset) : (s.setIp v).Inv := { h with ip := hv }

theorem setPointer (h : s.Inv) (r : Nat) {v : Nat} (hv : v ≤ s.cfg.mode.maxOffset) : (s.setPointer r v).Inv := by
  unfold State.setPointer
  split
  · exact h.setIp hv
  · refine { h with pointerCount := by simpa using h.pointerCount, pointers := fun x hx => ?_ }
    rcases List.mem_or_eq_of_mem_set hx with old | rfl
    · exact h.pointers x old
    · exact hv
  · exact h

theorem setSegment (h : s.Inv) (r : Nat) {v : Nat} (hv : v ≤ maxBase) : (s.setSegment r v).Inv := by
  unfold State.setSegment
  split
  · exact { h with seg := hv }
  · refine { h with segmentCount := by simpa using h.segmentCount, segments := fun x hx => ?_ }
    rcases List.mem_or_eq_of_mem_set hx with old | rfl
    · exact h.segments x old
    · exact hv
  · exact h

theorem setQueue (h : s.Inv) {q : List Nat} (hlen : q.length ≤ Config.queueCapacity)
    (hwords : ∀ w ∈ q, w < 2 ^ s.cfg.wordBits) : (s.setQueue q).Inv :=
  { h with queueLength := hlen, queueWords := hwords }

/-- A word that fits is appended only where there is room (10_state.md R41). -/
theorem enqueued (h : s.Inv) {w : Nat} (hw : w < 2 ^ s.cfg.wordBits) : (enqueue s w).Inv := by
  by_cases room : s.queue.length < Config.queueCapacity
  · rw [enqueue_room room]
    refine h.setQueue (by simpa using room) fun x hx => ?_
    rcases List.mem_append.1 hx with old | new
    · exact h.queueWords x old
    · rwa [List.mem_singleton.1 new]
  · rwa [enqueue_full (Nat.not_lt.1 room)]

/-- What is left once the head has been removed (10_state.md R41). -/
theorem dequeue (h : s.Inv) {w : Nat} {q : List Nat} (hq : s.queue = w :: q) : (s.setQueue q).Inv := by
  have hlen := h.queueLength
  have hwords := h.queueWords
  rw [hq] at hlen hwords
  exact h.setQueue (Nat.le_of_succ_le hlen) fun x hx => hwords x (List.mem_cons_of_mem w hx)

/-- A write inside the buffer lists bytes of the buffer only (20_memory.md R60). -/
theorem memWrite (h : s.Inv) {a n : Nat} (v : Nat) (ha : a + n ≤ s.cfg.totalBytes) : (s.memWrite a n v).Inv := by
  refine { h with memory := State.memWrite_wf s a n v h.memory, memoryBounds := fun cell hcell => ?_ }
  rcases Memory.mem_putBytes hcell with ⟨_, new⟩ | old
  · exact Nat.lt_of_lt_of_le (by rwa [littleEndian_length] at new) ha
  · exact h.memoryBounds cell old

/-! The BIU's phase matters to a running machine between commands alone (10_state.md R42), so within a command the
invariant is kept up to it: as `(u.setBiu .idle).Inv`. -/

theorem setBiu_idle (h : s.Inv) : (s.setBiu .idle).Inv := { h with biu := fun _ => rfl }

/-- A faulted machine may be in any phase, and its answer is the fault. -/
theorem raised (h : (s.setBiu .idle).Inv) (f : CoreFault) : (s.raised f).Inv :=
  { h with biu := nofun, answer := fun _ hf => congrArg (some ∘ Result.fault) (Option.some.inj hf) }

/-- A running machine may answer anything, but must be idle. -/
theorem answered (h : (s.setBiu .idle).Inv) (hf : s.fault = none) (hb : s.biu = .idle) (r : Result) :
    (s.setResult r).Inv :=
  { h with biu := fun _ => hb, answer := by simp [hf] }

/-- A halted machine answers its recorded fault. -/
theorem halted (h : s.Inv) {f : CoreFault} (hf : s.fault = some f) : (s.setResult (.fault f)).Inv :=
  { h with answer := by simp [hf] }

end

end State.Inv

/-- The drives of a FETCH that Memory has answered, but for the BIU's phases (44_cpu.md R201). -/
def drivenFetch (s : State) : State :=
  ((s.setAlatch (physicalAddress s)).setControl .read true).setDlatch (fetchedWord s)

theorem queuedFetch_eq_setBiu (s : State) :
    queuedFetch s = (enqueue (drivenFetch s) (fetchedWord s)).setBiu .dequeueReady := by
  simp only [queuedFetch, enqueue_eq]
  rfl

/-- The word FETCH reads fits the queue (20_memory.md R62). -/
theorem State.Inv.enqueue_drivenFetch {s : State} (h : s.Inv) :
    (enqueue (drivenFetch s) (fetchedWord s)).Inv :=
  (((h.setAlatch _).setControl _ _).setDlatch _).enqueued (State.memRead_lt s _ _)

/-- Every update keeps the invariant up to the BIU's phase. -/
theorem CommandUpdate.inv {i : Instr} {s u : State} (h : CommandUpdate i s u) (hs : s.Inv) :
    (u.setBiu .idle).Inv := by
  cases h with
  | unchanged => exact hs.setBiu_idle
  | address a => exact (hs.setAlatch a).setBiu_idle
  | data d => exact (hs.setDlatch d).setBiu_idle
  | control line v level => exact (hs.setControl line level).setBiu_idle
  | readWord w => exact ((hs.setControl .read true).setDlatch w).setBiu_idle
  | offset r hv => exact (hs.setPointer r (Int.toNat_le.2 hv)).setBiu_idle
  | ipAdvance hk => exact (hs.setIp hk).setBiu_idle
  | ipClear => exact (hs.setIp (Nat.zero_le _)).setBiu_idle
  | base r hv => exact (hs.setSegment r (Int.toNat_le.2 hv)).setBiu_idle
  | store hi ha hb => exact (hs.memWrite _ (by omega)).setBiu_idle
  | fetchBegun => exact (hs.setAlatch _).setBiu_idle
  | fetchDriven => exact ((hs.setAlatch _).setControl .read true).setBiu_idle
  | fetchQueued =>
    rw [queuedFetch_eq_setBiu]
    exact hs.enqueue_drivenFetch.setBiu_idle
  | fetchDone hip =>
    rw [queuedFetch_eq_setBiu]
    exact (hs.enqueue_drivenFetch.setIp (by simpa [enqueue_eq, drivenFetch] using hip)).setBiu_idle
  | dequeue hq => exact (hs.dequeue hq).setBiu_idle

/-- No update takes a fault: ending does. -/
theorem CommandUpdate.fault_eq {i : Instr} {s u : State} (h : CommandUpdate i s u) : u.fault = s.fault := by
  cases h <;> simp

/-- A command keeps the invariant, halted or running. -/
theorem State.Inv.of_exec {i : Instr} {s t : State} (hs : s.Inv) (h : exec i s = .next t) : t.Inv := by
  rcases exec_next h with ⟨f, hf, rfl⟩ | ⟨hf, effect⟩
  · exact hs.halted hf
  · obtain ⟨u, hu, ⟨f, rfl⟩ | ⟨hb, r, rfl⟩⟩ := effect.updatesAndEnds
    · exact (hu.inv hs).raised f
    · exact (hu.inv hs).answered (hu.fault_eq.trans hf) (hb (hs.biu hf)) r

/-- Settles O56: a step idles, rejects bytes that are no command, or runs a command. -/
theorem everyStepKeepsTheInvariant : Obligations.EveryStepKeepsTheInvariant := by
  intro s t hs h
  rcases step_next h with ⟨_, rfl⟩ | ⟨op, _, ⟨f, hf, rfl⟩ | ⟨_, rfl⟩⟩ | ⟨i, rest, _, hexec⟩
  · exact hs
  · exact (hs.setStream []).halted hf
  · exact (hs.setStream []).setBiu_idle.raised _
  · exact (hs.setStream rest).of_exec hexec

/-! ### Construction -/

/-- What the topology check lets through (70_reset_and_hazards.md R251). -/
theorem topologyOk_iff (c : Config) : c.topologyOk = true ↔
    (c.bytesPerChip ≠ 0 ∧ c.totalBytes % c.bytesPerChip = 0 ∧ c.numberOfChips = 2 ^ c.chipSelectBits) ∧
    (c.locPerChip ≠ 0 ∧ c.locPerChip = 2 ^ c.addressingDepth) ∧
    c.chipSelectBits + c.addressingDepth = c.addressLines := by
  simp [Config.topologyOk, isPowerOfTwo, Config.chipSelectBits, Config.addressingDepth, and_assoc]

/-- What construction lets through after the configuration is accepted (70_reset_and_hazards.md R251). -/
theorem constructionFault_eq_none {c : Config} (h : constructionFault c = none) :
    c.topologyOk = true ∧ 2 ≤ c.chipSelectBits := by
  unfold constructionFault at h
  split at h
  · cases h
  · rename_i htop
    split at h
    · cases h
    · rename_i harity
      exact ⟨by simpa using htop, Nat.not_lt.1 harity⟩

/-- A machine is constructed of a valid configuration, in its reset state (70_reset_and_hazards.md R252 and R259). -/
theorem construct_next {c : Config} {s : State} (h : construct c = .next s) :
    ConfigValid c ∧ s = State.initial c := by
  unfold construct at h
  split at h
  · cases h
  · rename_i harch
    split at h
    · cases h
    · rename_i hword
      split at h
      · cases h
      · rename_i hfault
        have hsize : c.wordSizeOk = true := by simpa using hword
        obtain ⟨htop, harity⟩ := constructionFault_eq_none hfault
        obtain ⟨⟨_, hdvd, hchips⟩, ⟨_, hloc⟩, hlines⟩ := (topologyOk_iff c).1 htop
        exact ⟨⟨harch, by simpa [Config.wordSizeOk, or_assoc] using hsize,
          Nat.div_mul_cancel (Nat.dvd_of_mod_eq_zero hdvd), hchips, hloc, hlines, harity⟩,
          (Host.Outcome.next.inj h).symm⟩

/-- The reset state has every register 0, nothing queued and nothing written (70_reset_and_hazards.md R259). -/
theorem State.initial_inv {c : Config} (hc : ConfigValid c) : (State.initial c).Inv where
  config := hc
  ip := Nat.zero_le _
  seg := Nat.zero_le _
  pointerCount := List.length_replicate
  pointers _ hv := by simp [List.eq_of_mem_replicate hv]
  segmentCount := List.length_replicate
  segments _ hv := by simp [List.eq_of_mem_replicate hv]
  queueLength := Nat.zero_le _
  queueWords := nofun
  memory := State.initial_mem_wf c
  memoryBounds := nofun
  biu _ := rfl
  answer := nofun

/-- Settles O55: a constructed machine is the reset state of a valid configuration. -/
theorem constructionEstablishesTheInvariant : Obligations.ConstructionEstablishesTheInvariant := by
  intro c s h
  obtain ⟨hc, rfl⟩ := construct_next h
  exact State.initial_inv hc

/-! ### The register file (10_state.md R30) -/

theorem regOfNumber_pointer {c : Config} {i : Nat} (h : i < c.nptr) :
    regOfNumber c (2 + i) = some (.pointer i) := by
  unfold regOfNumber
  rw [if_neg (by omega), if_neg (by omega), if_pos (by omega), Nat.add_sub_cancel_left]

theorem regOfNumber_segment {c : Config} {j : Nat} (h : j < c.nseg) :
    regOfNumber c (2 + c.nptr + j) = some (.segment j) := by
  unfold regOfNumber
  rw [if_neg (by omega), if_neg (by omega), if_neg (by omega), if_pos (by omega), Nat.add_sub_cancel_left]

theorem regOfNumber_none {c : Config} {r : Nat} (h : 2 + c.nptr + c.nseg ≤ r) : regOfNumber c r = none := by
  unfold regOfNumber
  rw [if_neg (by omega), if_neg (by omega), if_neg (by omega), if_neg (by omega)]

/-- A pointer register is in [0, MAX(MODE)] (10_state.md R31 and R32). -/
theorem State.Inv.pointer_le {s : State} (h : s.Inv) {r v : Nat} (hr : s.pointer r = some v) :
    v ≤ s.cfg.mode.maxOffset := by
  unfold State.pointer at hr
  split at hr
  · exact Option.some.inj hr ▸ h.ip
  · exact h.pointers v (List.mem_of_getElem? hr)
  · cases hr

/-- A segment register is 16 bits wide (10_state.md R33). -/
theorem State.Inv.segment_le {s : State} (h : s.Inv) {r v : Nat} (hr : s.segment r = some v) : v ≤ maxBase := by
  unfold State.segment at hr
  split at hr
  · exact Option.some.inj hr ▸ h.seg
  · exact h.segments v (List.mem_of_getElem? hr)
  · cases hr

/-- `W(MODE)` bits hold `MAX(MODE)` (10_state.md R22). -/
theorem maxOffset_lt (m : Mode) : m.maxOffset < 2 ^ m.width := Nat.sub_lt (Nat.two_pow_pos _) Nat.one_pos

/-- Settles O17: each number by its range, each width by the invariant. -/
theorem registerNumbersFollowTheFile : Obligations.RegisterNumbersFollowTheFile := by
  intro s hs
  refine ⟨rfl, rfl, rfl, rfl, fun i hi => ?_, fun j hj => ?_, fun r hr => ?_, fun r v hr => ?_, fun r v hr => ?_⟩
  · simp [State.pointer, State.segment, regOfNumber_pointer hi, hs.pointerCount, hi]
  · simp [State.pointer, State.segment, regOfNumber_segment hj, hs.segmentCount, hj]
  · simp [State.pointer, State.segment, regOfNumber_none hr]
  · exact Nat.lt_of_le_of_lt (hs.pointer_le hr) (maxOffset_lt _)
  · exact Nat.lt_of_le_of_lt (hs.segment_le hr) (by decide)

/-- Settles O27: the image is the little-endian bytes, and `256 ^ i` is `2 ^ (8 * i)`. -/
theorem registerImageIsLittleEndian : Obligations.RegisterImageIsLittleEndian := by
  intro w v
  refine ⟨littleEndian_length _ v, fun i hi => ?_⟩
  rw [registerImage, littleEndian_getElem? _ v i hi, Nat.pow_mul]

/-! ### The chip-select vector (10_state.md R24) -/

/-- Settles O33: every row's term is 1 on its own pattern. -/
theorem chipSelectVectorIsAllOnes : Obligations.ChipSelectVectorIsAllOnes := by
  intro c
  refine List.eq_replicate_iff.2 ⟨by simp [decodedVector], fun b hb => ?_⟩
  obtain ⟨r, _, rfl⟩ := List.mem_map.1 hb
  exact decodedBit_eq_true c r

end Sys2Proof.Machine

/-! ## Memory: the round trip, who writes it, and what FETCH reads of it -/

namespace Sys2Proof.Machine

/-! ### A word and its bytes (20_memory.md R62 to R64) -/

/-- MemRead inverts the bytes MemWrite stores: each is the remainder by 256 of what the bytes below it leave. -/
theorem State.memRead_of_bytes {t : State} {a n v : Nat} (hv : v < 2 ^ (8 * n))
    (h : ∀ i < n, t.byteAt (a + i) = BitVec.ofNat 8 (v / 256 ^ i)) : t.memRead a n = v := by
  induction n generalizing a v with
  | zero => exact (Nat.lt_one_iff.1 hv).symm
  | succ n ih =>
    have low : t.byteAt a = BitVec.ofNat 8 v := by simpa using h 0 n.succ_pos
    have high : t.memRead (a + 1) n = v / 256 := by
      refine ih (Nat.div_lt_of_lt_mul ?_) fun i hi => ?_
      · rwa [Nat.mul_succ, Nat.add_comm, Nat.pow_add] at hv
      · rw [Nat.div_div_eq_div_mul, ← Nat.pow_succ', ← h (i + 1) (Nat.succ_lt_succ hi), Nat.add_right_comm,
          Nat.add_assoc]
    rw [State.memRead, low, high, BitVec.toNat_ofNat]
    exact Nat.mod_add_div v 256

/-- MemWrite stores byte `i` of the value at the `i`-th address (20_memory.md R63). -/
theorem State.byteAt_memWrite_add (s : State) (a v : Nat) {n i : Nat} (hi : i < n) :
    (s.memWrite a n v).byteAt (a + i) = BitVec.ofNat 8 (v / 256 ^ i) := by
  rw [State.byteAt_memWrite, if_pos (by omega), Nat.add_sub_cancel_left]

/-- Settles O40: the bytes are the value's own, and they determine it. -/
theorem wordReadsBackAsWritten : Obligations.WordReadsBackAsWritten :=
  fun s _ a _ v hv h => State.memRead_of_bytes hv fun i hi => (h i hi).trans (s.byteAt_memWrite_add a v hi)

/-- Settles O41: the bound needs no more than the mask, so it holds of every address. -/
theorem readPathStaysInTheBuffer : Obligations.ReadPathStaysInTheBuffer :=
  fun _ a hc _ => hc.readPath_in_buffer a

/-! ### Who writes memory (20_memory.md R72) -/

/-- A byte changes by a store of a word that holds it (43_memory_ops.md R180 and R182). -/
theorem CommandUpdate.byteAt_eq_or {i : Instr} {s u : State} (h : CommandUpdate i s u) (c : Nat) :
    u.byteAt c = s.byteAt c ∨
    ∃ a v : Int, (i = .memWrite a v ∨ i = .rawStore a v) ∧ a ≤ c ∧ (c : Int) < a + s.cfg.wordBytes := by
  cases h with
  | @store _ a v _ hi ha hb =>
    rw [State.byteAt_memWrite]
    split
    · exact .inr ⟨a, v, hi, by omega, by omega⟩
    · exact .inl rfl
  | _ => exact .inl (State.byteAt_of_eq (by simp) (by simp) c)

/-- Settles O42: only a store's update reaches a byte. -/
theorem onlyStoresWriteMemory : Obligations.OnlyStoresWriteMemory := by
  intro i s t c h hne
  obtain ⟨u, _, _, hu, rfl⟩ := exec_update h
  exact (hu.byteAt_eq_or c).resolve_left hne

/-! ### What FETCH reads (20_memory.md R74) -/

/-- The bytes FETCH can read: those below `min(N, 2^DEPTH) - 1 + WORD_BYTES` (20_memory.md R74). -/
def fetchReach (c : Config) : Nat :=
  min c.numberOfChips (2 ^ c.addressingDepth) - 1 + c.wordBytes

/-- The word at a chip's address lies within reach: masking neither raises the address nor leaves `2^DEPTH`. -/
theorem internalAddress_add_lt_fetchReach {c : Config} {a i : Nat} (ha : a < c.numberOfChips)
    (hi : i < c.wordBytes) : internalAddress c a + i < fetchReach c := by
  have hle : internalAddress c a ≤ a := Nat.and_le_left
  have hlt := internalAddress_lt c a
  unfold fetchReach
  omega

/-- FETCH of a running machine with a valid configuration, by its checks in order (44_cpu.md R200 and R201). -/
theorem execFetch_eq {s : State} (hc : ConfigValid s.cfg) (hf : s.fault = none) :
    execFetch s =
      if s.cfg.mode ≠ .realMode then raise (.modeNotSupported s.cfg.mode) s
      else if s.cfg.numberOfChips ≤ physicalAddress s then
        raise (.indexError (physicalAddress s)) ((beginFetch s).setControl .read true)
      else if s.cfg.mode.maxOffset < s.ip + 1 then raise (.offsetRangeError (s.ip + 1 : Nat)) (queuedFetch s)
      else ret (.status s.hasRoom) (((queuedFetch s).setIp (s.ip + 1)).setBiu .idle) := by
  rcases execFetch_cases hf with ⟨hm, e⟩ | ⟨_, harch, _⟩ | ⟨hm, _, hN, e⟩ | ⟨_, _, _, outside, _⟩ |
    ⟨hm, _, hN, _, hip, e⟩ | ⟨hm, _, hN, _, hip, e⟩
  · rw [e, if_pos hm]
  · exact absurd hc.arch harch
  · rw [e, if_neg (not_not.2 hm), if_pos hN]
  · exact absurd (hc.readPath_in_buffer (physicalAddress s)) (Nat.not_le.2 outside)
  · rw [e, if_neg (not_not.2 hm), if_neg (Nat.not_le.2 hN), if_pos hip]
  · rw [e, if_neg (not_not.2 hm), if_neg (Nat.not_le.2 hN), if_neg (Nat.not_lt.2 hip)]

/-- The machine with another memory. -/
def State.withMem (s : State) (m : Memory) : State := { s with mem := m }

section
variable {s : State} {m : Memory}

/-- Memories that agree within reach give FETCH the same word. -/
theorem fetchedWord_withMem (h : ∀ a < fetchReach s.cfg, (s.withMem m).byteAt a = s.byteAt a)
    (hN : physicalAddress s < s.cfg.numberOfChips) : fetchedWord (s.withMem m) = fetchedWord s :=
  State.memRead_congr fun _ hi => h _ (internalAddress_add_lt_fetchReach hN hi)

/-- But for the word it reads, a FETCH does not look at memory. -/
theorem queuedFetch_withMem (h : fetchedWord (s.withMem m) = fetchedWord s) :
    queuedFetch (s.withMem m) = (queuedFetch s).withMem m := by
  rw [queuedFetch_eq, queuedFetch_eq, h]
  rfl

/-- FETCH looks at memory only for its word, and only once its address has passed the range check, so memories that
agree within reach make no other difference than themselves: both machines take the same branch, since no check looks
at memory. -/
theorem execFetch_withMem (hc : ConfigValid s.cfg)
    (h : ∀ a < fetchReach s.cfg, (s.withMem m).byteAt a = s.byteAt a) {t : State} :
    execFetch s = .next t → execFetch (s.withMem m) = .next (t.withMem m) := by
  rcases Option.eq_none_or_eq_some s.fault with hf | ⟨f, hf⟩
  · rw [execFetch_eq hc hf, execFetch_eq (s := s.withMem m) hc hf]
    change _ → (if s.cfg.mode ≠ .realMode then _ else if s.cfg.numberOfChips ≤ physicalAddress s then _
      else if s.cfg.mode.maxOffset < s.ip + 1 then _ else _) = _
    split_ifs with _ hN _
    · rintro ⟨⟩
      rfl
    · rintro ⟨⟩
      rfl
    · rw [queuedFetch_withMem (fetchedWord_withMem h (Nat.not_le.1 hN))]
      rintro ⟨⟩
      rfl
    · rw [queuedFetch_withMem (fetchedWord_withMem h (Nat.not_le.1 hN))]
      rintro ⟨⟩
      rfl
  · intro ht
    obtain rfl := Host.Outcome.next.inj ((exec_halted .fetch hf).symm.trans ht)
    exact exec_halted .fetch (s := s.withMem m) hf

end

/-- Settles O43: the bytes that agree are those within reach. -/
theorem fetchSeesOnlyTheReachableBytes : Obligations.FetchSeesOnlyTheReachableBytes := by
  intro s u hc hu h t ht
  generalize u.mem = m at hu ⊢
  subst hu
  exact execFetch_withMem hc h ht

end Sys2Proof.Machine

/-! ## The encoding: bytes decode to a command exactly when they begin with its encoding (30_encoding.md) -/

namespace Sys2Proof

/-! ### Operands: each reader accepts exactly what its writer writes (30_encoding.md R92 to R94) -/

section
variable {bs rest : List Byte}

theorem takeNat_ok_iff {v : Nat} : takeNat bs = .ok (v, rest) ↔ bs = encodeNat v ++ rest :=
  ⟨takeNat_ok, fun h => h ▸ takeNat_encodeNat v rest⟩

theorem takeInt_ok_iff {v : Int} : takeInt bs = .ok (v, rest) ↔ bs = encodeInt v ++ rest :=
  ⟨takeInt_ok, fun h => h ▸ takeInt_encodeInt v rest⟩

theorem takeByte_ok_iff {b : Byte} : takeByte bs = .ok (b, rest) ↔ bs = b :: rest := by
  cases bs <;> simp [takeByte]

theorem takeBytes_ok_iff {k : Nat} {xs : List Byte} :
    takeBytes k bs = .ok (xs, rest) ↔ xs.length = k ∧ bs = xs ++ rest := by
  unfold takeBytes
  constructor
  · intro h
    split at h
    · rename_i hk
      cases h
      exact ⟨List.length_take_of_le hk, (List.take_append_drop k bs).symm⟩
    · cases h
  · rintro ⟨rfl, rfl⟩
    simp

theorem takeBits_ok_iff {bits : List Byte} : takeBits bs = .ok (bits, rest) ↔ bs = encodeBits bits ++ rest := by
  unfold takeBits encodeBits
  constructor
  · intro h
    split at h
    · rename_i k mid hk
      obtain ⟨rfl, rfl⟩ := takeBytes_ok_iff.1 h
      rw [takeNat_ok_iff.1 hk, List.append_assoc]
    · cases h
  · rintro rfl
    rw [List.append_assoc, takeNat_encodeNat]
    exact takeBytes_ok_iff.2 ⟨rfl, rfl⟩

/-- The one operand with a bound: the length byte holds the length of a name of at most 255 bytes (R92). -/
theorem takeName_ok_iff {name : Name} :
    takeName bs = .ok (name, rest) ↔ name.fits = true ∧ bs = encodeName name ++ rest := by
  unfold takeName encodeName Name.fits
  constructor
  · intro h
    split at h
    · rename_i l mid hl
      obtain ⟨hlen, rfl⟩ := takeBytes_ok_iff.1 h
      refine ⟨decide_eq_true (by omega), ?_⟩
      rw [takeByte_ok_iff.1 hl, hlen, BitVec.ofNat_toNat, BitVec.setWidth_eq, List.cons_append]
    · cases h
  · rintro ⟨hfits, rfl⟩
    have hlen : (BitVec.ofNat 8 name.length).toNat = name.length :=
      Nat.mod_eq_of_lt (Nat.lt_succ_of_le (of_decide_eq_true hfits))
    exact takeBytes_ok_iff.2 ⟨hlen.symm, rfl⟩

/-! ### Formats (30_encoding.md R95) -/

variable {α β : Type} {p : List Byte → Parsed α} {q : List Byte → Parsed β} {i : Instr}

theorem parse1_ok_iff {mk : α → Instr} :
    parse1 mk p bs = .ok (i, rest) ↔ ∃ a, i = mk a ∧ p bs = .ok (a, rest) := by
  unfold parse1
  split <;> rename_i h <;> simp [h, eq_comm]

theorem parse2_ok_iff {mk : α → β → Instr} :
    parse2 mk p q bs = .ok (i, rest) ↔
      ∃ a b, i = mk a b ∧ ∃ mid, p bs = .ok (a, mid) ∧ q mid = .ok (b, rest) := by
  unfold parse2
  split <;> rename_i h <;> simp [h, parse1_ok_iff]

/-! ### Commands (30_encoding.md R90 and R99) -/

/-- The header byte that a command was read behind is its own: the opcode map names no command twice. -/
theorem opcode_of_decodeOperands {op : Nat} (h : decodeOperands op bs = .ok (i, rest)) : op = i.opcode.toNat := by
  unfold decodeOperands at h
  split at h
  -- FETCH and DECODE, and the headers of no row; then the rows of two operands, and of one
  case h_20 | h_21 => cases h; rfl
  case h_22 => cases h
  case h_3 | h_4 | h_6 | h_8 | h_11 | h_12 | h_17 | h_18 =>
    obtain ⟨a, b, rfl, _⟩ := parse2_ok_iff.1 h
    rfl
  all_goals
    obtain ⟨a, rfl, _⟩ := parse1_ok_iff.1 h
    rfl

/-- Behind a command's header byte its operands are read from exactly the bytes they are written as. -/
theorem decodeOperands_opcode_ok_iff :
    decodeOperands i.opcode.toNat bs = .ok (i, rest) ↔ i.wellFormed = true ∧ bs = i.operandBytes ++ rest := by
  cases i <;>
    simp [decodeOperands, Instr.opcode, Instr.wellFormed, Instr.operandBytes, parse1_ok_iff, parse2_ok_iff,
      takeNat_ok_iff, takeInt_ok_iff, takeByte_ok_iff, takeBits_ok_iff, takeName_ok_iff]

/-- A byte stream begins with a command exactly when it begins with the encoding of one that has an encoding. -/
theorem decode_ok_iff : decode bs = .ok (i, rest) ↔ i.wellFormed = true ∧ bs = encode i ++ rest := by
  cases bs with
  | nil => simp [decode, encode]
  | cons op operands =>
    change decodeOperands op.toNat operands = _ ↔ _ ∧ op :: operands = i.opcode :: (i.operandBytes ++ rest)
    rw [List.cons.injEq]
    constructor
    · intro h
      obtain rfl := BitVec.eq_of_toNat_eq (opcode_of_decodeOperands h)
      obtain ⟨hwf, hbytes⟩ := decodeOperands_opcode_ok_iff.1 h
      exact ⟨hwf, rfl, hbytes⟩
    · rintro ⟨hwf, rfl, hbytes⟩
      exact decodeOperands_opcode_ok_iff.2 ⟨hwf, hbytes⟩

end

/-- Settles O1: the encoding is one way to begin a stream. -/
theorem encodedInstructionDecodesToItself : Obligations.EncodedInstructionDecodesToItself :=
  fun _ _ hwf => decode_ok_iff.2 ⟨hwf, rfl⟩

/-- Settles O2: the encoding is the only way to begin a stream. -/
theorem decodedBytesAreTheEncoding : Obligations.DecodedBytesAreTheEncoding :=
  fun _ _ _ h => decode_ok_iff.1 h

/-- Settles O59: what is written is read back, and nothing behind it is. -/
theorem bitsOperandHoldsOneBytePerElement : Obligations.BitsOperandHoldsOneBytePerElement :=
  fun _ _ => ⟨rfl, takeBits_ok_iff.2 (List.append_assoc _ _ _).symm⟩

/-- Settles O3: each sequence of the table is its command's encoding, with nothing behind it. -/
theorem workedEncodingsDecode : Obligations.WorkedEncodingsDecode := by
  unfold Obligations.WorkedEncodingsDecode
  and_intros <;> exact decode_ok_iff.2 (by decide)

/-- Every command's header byte is a row of the opcode map (30_encoding.md R99). -/
theorem Instr.opcode_mem_opcodes (i : Instr) : i.opcode ∈ opcodes := by
  cases i <;> simp [Instr.opcode, opcodes]

/-- Bytes behind a header byte that is no row are no command (30_encoding.md R98). -/
theorem decode_error_of_not_mem_opcodes {op : Byte} (h : op ∉ opcodes) (bs : List Byte) :
    ∃ e, decode (op :: bs) = .error e := by
  cases hd : decode (op :: bs) with
  | error e => exact ⟨e, rfl⟩
  | ok parsed =>
    obtain ⟨-, hbytes⟩ := decode_ok_iff.1 hd
    obtain ⟨rfl, -⟩ := List.cons.inj hbytes
    exact absurd parsed.1.opcode_mem_opcodes h

end Sys2Proof

/-! ## Steps, assembly and answers -/

namespace Sys2Proof.Machine

/-! ### What a step makes of the stream (30_encoding.md R90 and R97) -/

theorem nextCommand_of_decode_ok {bs rest : List Byte} {i : Instr} (h : decode bs = .ok (i, rest)) :
    nextCommand bs = .command i rest := by
  cases bs with
  | nil => cases h
  | cons op bs => simp [nextCommand, h]

theorem nextCommand_of_decode_error {op : Byte} {bs : List Byte} {e : DecodeError}
    (h : decode (op :: bs) = .error e) : nextCommand (op :: bs) = .illegal op := by
  simp [nextCommand, h]

theorem step_of_decode_ok {s : State} {i : Instr} {rest : List Byte} (h : decode s.stream = .ok (i, rest)) :
    step s = exec i (s.setStream rest) := by
  simp [step, nextCommand_of_decode_ok h]

/-- On a running machine bytes that are no command raise `IllegalCommand` of their header byte (R97). -/
theorem step_of_decode_error {s : State} {op : Byte} {bs : List Byte} {e : DecodeError} (hf : s.fault = none)
    (hs : s.stream = op :: bs) (h : decode (op :: bs) = .error e) :
    step s = .next ((s.setStream []).raised (.illegalCommand op)) := by
  simp [step, hs, nextCommand_of_decode_error h, rejectCommand, issue_running, hf, raise_eq_raised]

/-- Settles O5. -/
theorem stepRunsTheDecodedCommand : Obligations.StepRunsTheDecodedCommand :=
  fun _ _ _ h => step_of_decode_ok h

/-- Settles O7: 0x00 and the families from 0x5 on are no rows of the opcode map either. -/
theorem unassignedHeaderRaisesIllegalCommand : Obligations.UnassignedHeaderRaisesIllegalCommand := by
  intro s op rest hf hs hop
  have hmem : op ∉ opcodes := by
    rcases hop with rfl | hop | hop
    · decide
    · have hlow : ∀ b ∈ opcodes, b.toNat < 0x50 := by decide
      exact fun hmem => absurd (hlow op hmem) (Nat.not_lt.2 hop)
    · exact hop
  obtain ⟨e, he⟩ := decode_error_of_not_mem_opcodes hmem rest
  exact ⟨_, step_of_decode_error hf hs he, rfl⟩

/-! ### PRELOAD (30_encoding.md R104) -/

theorem expandPreload_length (w : Nat) (a : Int) (vs : List Int) : (expandPreload w a vs).length = vs.length := by
  induction vs generalizing a with
  | nil => rfl
  | cons v vs ih => simp [expandPreload, ih]

theorem expandPreload_getElem? (w : Nat) (a : Int) (vs : List Int) (k : Nat) :
    (expandPreload w a vs)[k]? = vs[k]?.map (fun v => .memWrite (a + k * w) v) := by
  induction vs generalizing a k with
  | nil => rfl
  | cons v vs ih =>
    cases k with
    | zero => simp [expandPreload]
    | succ k =>
      have haddr : a + w + k * w = a + (k + 1 : Nat) * w := by push_cast; ring
      simp [expandPreload, ih, haddr]

/-- Settles O4. -/
theorem preloadExpandsToConsecutiveWrites : Obligations.PreloadExpandsToConsecutiveWrites := by
  intro c a vs
  refine ⟨expandPreload_length _ a vs, fun k v hv => ?_⟩
  rw [AsmLine.expand, expandPreload_getElem?, hv]
  rfl

/-! ### What a command returns (30_encoding.md R101) -/

/-- Command `i` of `s` ended in `t` with a recorded fault as its answer, or without one and a value of its kind. -/
def EndsInKind (i : Instr) (s t : State) : Prop :=
  (∃ f, t.fault = some f ∧ t.result = some (.fault f)) ∨
    (t.fault = none ∧ ∃ r, t.result = some r ∧ resultKind s.cfg i r)

section
variable {i : Instr} {s u : State}

theorem EndsInKind.raised (f : CoreFault) : EndsInKind i s (u.raised f) := .inl ⟨f, rfl, rfl⟩

theorem EndsInKind.answered {r : Result} (hu : u.fault = none) (hr : resultKind s.cfg i r) :
    EndsInKind i s (u.setResult r) := .inr ⟨hu, r, rfl, hr⟩

end

@[simp] theorem oneHotOutput_length (c : Config) (x : Nat) : (oneHotOutput c x).length = c.numberOfChips := by
  simp [oneHotOutput]

theorem StoreEffect.endsInKind {i : Instr} {a v : Int} {s t : State} (hf : s.fault = none)
    (hi : resultKind s.cfg i .unit) (h : StoreEffect a v s t) : EndsInKind i s t := by
  rcases h with rfl | rfl | ⟨_, _, _, rfl⟩
  · exact .raised _
  · exact .raised _
  · exact .answered (by simp [hf]) hi

theorem GateEffect.endsInKind {i : Instr} {a b : Byte} {s t : State} (hf : s.fault = none)
    (hi : ∀ y, resultKind s.cfg i (.bit y)) (h : GateEffect a b s t) : EndsInKind i s t := by
  rcases h with rfl | rfl | ⟨y, rfl⟩
  · exact .raised _
  · exact .raised _
  · exact .answered hf (hi y)

/-- Each listed effect of a command is a fault or a value of the command's kind. -/
theorem CommandEffect.endsInKind {i : Instr} {s t : State} (hf : s.fault = none) (h : CommandEffect i s t) :
    EndsInKind i s t := by
  cases i with
  | addrSend a | dataSend d => subst h; exact .answered hf rfl
  | ctrlSend name v =>
    rcases h with rfl | rfl | ⟨line, level, _, rfl⟩ | ⟨a, _, _, _, _, rfl⟩ | ⟨w, _, _, rfl⟩
    · exact .raised _
    · exact .raised _
    · exact .answered (by simp [hf]) rfl
    · exact .raised _
    · exact .answered (by simp [hf]) rfl
  | setOffset r v | ipInc r k | setBase r v =>
    rcases h with rfl | rfl | ⟨_, _, rfl⟩
    · exact .raised _
    · exact .raised _
    · exact .answered (by simp [hf]) rfl
  | ipReset r =>
    rcases h with rfl | ⟨_, rfl⟩
    · exact .raised _
    · exact .answered hf rfl
  | andGate a b | orGate a b => exact GateEffect.endsInKind hf (fun y => ⟨y, rfl⟩) h
  | cascadeAnd bits =>
    rcases h with rfl | ⟨e, _, rfl⟩ | ⟨y, rfl⟩
    · exact .raised _
    · exact .raised _
    · exact .answered hf ⟨y, rfl⟩
  | truthTable n => subst h; exact .answered hf ⟨_, rfl⟩
  | getOffset r | getBase r | notGate a | decLookup a | rawLoad a =>
    rcases h with rfl | ⟨y, rfl⟩
    · exact .raised _
    · exact .answered hf ⟨y, rfl⟩
  | decOnehot x =>
    rcases h with rfl | ⟨k, rfl⟩
    · exact .raised _
    · exact .answered hf ⟨_, rfl, oneHotOutput_length _ k⟩
  | memWrite a v =>
    rcases h with rfl | h
    · exact .raised _
    · exact h.endsInKind hf rfl
  | rawStore a v => exact StoreEffect.endsInKind hf rfl h
  | fetch =>
    rcases h with rfl | ⟨_, rfl⟩ | ⟨_, rfl⟩ | ⟨_, rfl⟩ | ⟨_, _, rfl⟩
    · exact .raised _
    · exact .raised _
    · exact .raised _
    · exact .raised _
    · exact .answered (by simp [hf]) ⟨_, rfl⟩
  | decode =>
    rcases h with rfl | ⟨w, q, _, rfl⟩
    · exact .answered hf ⟨_, rfl⟩
    · exact .answered hf ⟨_, rfl⟩

/-- A command's answer: the fault on record, from before or its own, or a value of its kind. -/
theorem exec_endsInKind {i : Instr} {s t : State} (h : exec i s = .next t) : EndsInKind i s t := by
  rcases exec_next h with ⟨f, hf, rfl⟩ | ⟨hf, effect⟩
  · exact .inl ⟨f, hf, rfl⟩
  · exact effect.endsInKind hf

/-- Settles O12. -/
theorem commandReturnsAValueOfItsKind : Obligations.CommandReturnsAValueOfItsKind := by
  intro i s t h
  rcases exec_endsInKind h with ⟨f, hf, hr⟩ | ⟨hf, hval⟩
  · simp [hf, hr]
  · simp [hf, hval]

end Sys2Proof.Machine

/-! ## Bus commands: ADDR_SEND and DATA_SEND latch, CTRL_SEND checks before it drives (40_bus.md) -/

namespace Sys2Proof.Machine

/-- Settles O13. -/
theorem addrSendLatchesTheAddress : Obligations.AddrSendLatchesTheAddress :=
  fun _ _ hf => ⟨rfl, fun _ => rfl, issue_running hf _⟩

/-- Settles O14. -/
theorem dataSendLatchesTheDataOnly : Obligations.DataSendLatchesTheDataOnly :=
  fun _ _ hf => ⟨rfl, fun _ => rfl, issue_running hf _⟩

/-! ### CTRL_SEND (40_bus.md R122) -/

theorem signalOfName_name (line : Signal) : signalOfName .x86 line.name = some line := by
  cases line with
  | read => exact signalOfName_read
  | write => exact signalOfName_write
  | memoryIo => exact signalOfName_memoryIo

section
variable {s : State} {name : Name} {v : Byte}

/-- The name is checked first, so the payload does not matter. -/
theorem exec_ctrlSend_unknownName (hf : s.fault = none) (hn : signalOfName s.cfg.arch name = none) :
    exec (.ctrlSend name v) s = .next (s.raised (.invalidSignalError name)) := by
  simp [exec, execCtrlSend, issue_running hf, hn, raise_eq_raised]

/-- The payload is checked before the drive, so no latch is set. -/
theorem exec_ctrlSend_illegalPayload {line : Signal} (hf : s.fault = none)
    (hn : signalOfName s.cfg.arch name = some line) (hv : bitOfByte v = none) :
    exec (.ctrlSend name v) s = .next (s.raised (.illegalOperand v.toNat)) := by
  simp [exec, execCtrlSend, issue_running hf, hn, hv, raise_eq_raised]

/-- Both checks passed, the command is its drive. -/
theorem exec_ctrlSend_drives {line : Signal} {level : Bool} (ha : s.cfg.arch = .x86) (hf : s.fault = none)
    (hv : bitOfByte v = some level) :
    exec (.ctrlSend line.name v) s = endCtrlSend (driveControl s line level) := by
  simp [exec, execCtrlSend, issue_running hf, ha, signalOfName_name, hv]

/-- A drive without a listener only sets its latch. -/
theorem exec_ctrlSend_unheard {line : Signal} {level : Bool} (ha : s.cfg.arch = .x86) (hf : s.fault = none)
    (hv : bitOfByte v = some level) (hl : line ≠ .read ∨ level = false) :
    exec (.ctrlSend line.name v) s = .next ((s.setControl line level).setResult .unit) := by
  rw [exec_ctrlSend_drives ha hf hv, driveControl_unheard hl]
  rfl

/-- READ driven true runs Memory's response on the state whose READ latch is already set. -/
theorem exec_ctrlSend_read (ha : s.cfg.arch = .x86) (hf : s.fault = none) :
    exec (.ctrlSend readName 1) s = endCtrlSend (memoryReadResponse (s.setControl .read true)) :=
  exec_ctrlSend_drives (line := .read) ha hf bitOfByte_one

end

/-- Settles O15: the checks, the drives nobody hears, and the three outcomes of the read response. -/
theorem ctrlSendFollowsItsRule : Obligations.CtrlSendFollowsItsRule := by
  intro s name v hc hf
  refine ⟨rfl, fun hname => ?unknown, fun hname h0 h1 => ?payload, ?write, ?memoryIo, ?readFalse, ?silent,
    ?outOfRange, ?answers⟩
  case unknown =>
    exact exec_ctrlSend_unknownName hf (hc.arch ▸ (signalOfName_eq_none_iff name).2 hname)
  case payload =>
    have hsome : signalOfName s.cfg.arch name ≠ none :=
      fun hn => (signalOfName_eq_none_iff name).1 (hc.arch ▸ hn) hname
    obtain ⟨line, hline⟩ := Option.ne_none_iff_exists'.1 hsome
    exact exec_ctrlSend_illegalPayload hf hline ((bitOfByte_eq_none_iff v).2 ⟨h0, h1⟩)
  case write =>
    rintro rfl hv
    exact exec_ctrlSend_unheard (line := .write) hc.arch hf (bitOfByte_of_bit hv) (.inl (by decide))
  case memoryIo =>
    rintro rfl hv
    exact exec_ctrlSend_unheard (line := .memoryIo) hc.arch hf (bitOfByte_of_bit hv) (.inl (by decide))
  case readFalse =>
    rintro rfl rfl
    exact exec_ctrlSend_unheard (line := .read) hc.arch hf bitOfByte_zero (.inr rfl)
  case silent =>
    rintro rfl rfl hal
    rw [exec_ctrlSend_read hc.arch hf, memoryReadResponse_silent (s := s.setControl .read true) hal]
    rfl
  case outOfRange =>
    rintro a rfl rfl hal ha
    rw [exec_ctrlSend_read hc.arch hf, memoryReadResponse_outOfRange (s := s.setControl .read true) hal ha]
    rfl
  case answers =>
    rintro a rfl rfl hal ha
    rw [exec_ctrlSend_read hc.arch hf,
      memoryReadResponse_answers (s := s.setControl .read true) hal ha (hc.readPath_in_buffer a),
      State.memRead_setControl]
    rfl

end Sys2Proof.Machine

/-! ## Register commands: SET and GET of offsets and bases, IP_INC and IP_RESET (41_registers.md) -/

namespace Sys2Proof.Machine

/-! ### The register file: a read after a write, and what a write leaves alone (10_state.md R30) -/

/-- The number that names a register is the one it is written by. -/
theorem number_of_regOfNumber {c : Config} {r : Nat} {reg : RegName} (h : regOfNumber c r = some reg) :
    reg.number c = r := by
  unfold regOfNumber at h
  repeat' split at h
  all_goals cases h
  all_goals simp only [RegName.number]; omega

/-- Different numbers name different registers. -/
theorem regOfNumber_ne {c : Config} {q r : Nat} {reg : RegName} (hr : regOfNumber c r = some reg) (h : q ≠ r) :
    regOfNumber c q ≠ some reg :=
  fun hq => h ((number_of_regOfNumber hq).symm.trans (number_of_regOfNumber hr))

section
variable (s : State)

/-- A write of an offset reaches IP and P alone (41_registers.md R140). -/
theorem State.setPointer_eq (r v : Nat) :
    s.setPointer r v = { s with ip := (s.setPointer r v).ip, p := (s.setPointer r v).p } := by
  unfold State.setPointer
  split <;> rfl

/-- A write of a base reaches SEG and S alone (41_registers.md R144). -/
theorem State.setSegment_eq (r v : Nat) :
    s.setSegment r v = { s with seg := (s.setSegment r v).seg, segs := (s.setSegment r v).segs } := by
  unfold State.setSegment
  split <;> rfl

theorem State.pointer_setPointer_same (r v : Nat) :
    (s.setPointer r v).pointer r = (s.pointer r).map (Function.const Nat v) := by
  cases hr : regOfNumber s.cfg r with
  | none => simp [State.setPointer, State.pointer, hr]
  | some reg => cases reg <;> simp [State.setPointer, State.pointer, hr, List.getElem?_set_self']

theorem State.segment_setSegment_same (r v : Nat) :
    (s.setSegment r v).segment r = (s.segment r).map (Function.const Nat v) := by
  cases hr : regOfNumber s.cfg r with
  | none => simp [State.setSegment, State.segment, hr]
  | some reg => cases reg <;> simp [State.setSegment, State.segment, hr, List.getElem?_set_self']

theorem State.pointer_setPointer_other {q r : Nat} (v : Nat) (h : q ≠ r) :
    (s.setPointer r v).pointer q = s.pointer q := by
  simp only [State.pointer, State.setPointer_cfg]
  split
  case h_1 hq =>
    have hr := regOfNumber_ne hq h.symm
    unfold State.setPointer
    split
    · contradiction
    · rfl
    · rfl
  case h_2 hq =>
    have hr := regOfNumber_ne hq h.symm
    unfold State.setPointer
    split
    · rfl
    · exact List.getElem?_set_ne (by simp_all)
    · rfl
  case h_3 => rfl

theorem State.segment_setSegment_other {q r : Nat} (v : Nat) (h : q ≠ r) :
    (s.setSegment r v).segment q = s.segment q := by
  simp only [State.segment, State.setSegment_cfg]
  split
  case h_1 hq =>
    have hr := regOfNumber_ne hq h.symm
    unfold State.setSegment
    split
    · contradiction
    · rfl
    · rfl
  case h_2 hq =>
    have hr := regOfNumber_ne hq h.symm
    unfold State.setSegment
    split
    · rfl
    · exact List.getElem?_set_ne (by simp_all)
    · rfl
  case h_3 => rfl

end

/-! ### What each command does on a running machine (41_registers.md R140 to R145) -/

section
variable {s : State} {r : Nat}

theorem exec_setOffset_eq (hf : s.fault = none) (v : Int) : exec (.setOffset r v) s =
    if s.pointer r = none then .next (s.raised (.illegalOperand r))
    else if v < 0 ∨ (s.cfg.mode.maxOffset : Int) < v then .next (s.raised (.offsetRangeError v))
    else .next ((s.setPointer r v.toNat).setResult .unit) := by
  simp only [exec, execSetOffset, issue_running hf, raise_eq_raised, ret]
  cases s.pointer r <;> simp

theorem exec_setBase_eq (hf : s.fault = none) (v : Int) : exec (.setBase r v) s =
    if s.segment r = none then .next (s.raised (.illegalOperand r))
    else if v < 0 ∨ (maxBase : Int) < v then .next (s.raised (.baseRangeError v))
    else .next ((s.setSegment r v.toNat).setResult .unit) := by
  simp only [exec, execSetBase, issue_running hf, raise_eq_raised, ret]
  cases s.segment r <;> simp

theorem exec_getOffset_none (hf : s.fault = none) (hr : s.pointer r = none) :
    exec (.getOffset r) s = .next (s.raised (.illegalOperand r)) := by
  simp [exec, execGetOffset, issue_running hf, hr, raise_eq_raised]

theorem exec_getOffset_some (hf : s.fault = none) {v : Nat} (hr : s.pointer r = some v) :
    exec (.getOffset r) s = .next (s.setResult (.nat v)) := by
  simp [exec, execGetOffset, issue_running hf, hr, ret]

theorem exec_getBase_none (hf : s.fault = none) (hr : s.segment r = none) :
    exec (.getBase r) s = .next (s.raised (.illegalOperand r)) := by
  simp [exec, execGetBase, issue_running hf, hr, raise_eq_raised]

theorem exec_getBase_some (hf : s.fault = none) {v : Nat} (hr : s.segment r = some v) :
    exec (.getBase r) s = .next (s.setResult (.nat v)) := by
  simp [exec, execGetBase, issue_running hf, hr, ret]

theorem exec_ipInc_eq (hf : s.fault = none) (k : Nat) : exec (.ipInc r k) s =
    if r ≠ 0 then .next (s.raised (.illegalOperand r))
    else if s.cfg.mode.maxOffset < s.ip + k then .next (s.raised (.offsetRangeError (s.ip + k : Nat)))
    else .next ((s.setIp (s.ip + k)).setResult .unit) := by
  simp only [exec, execIpInc, issue_running hf, raise_eq_raised, ret, ne_eq, regOfNumber_ip]

theorem exec_ipReset_eq (hf : s.fault = none) : exec (.ipReset r) s =
    if r ≠ 0 then .next (s.raised (.illegalOperand r)) else .next ((s.setIp 0).setResult .unit) := by
  simp only [exec, execIpReset, issue_running hf, raise_eq_raised, ret, ne_eq, regOfNumber_ip]

end

/-- Settles O18: the checks in order, then the read-after-write laws of the pointer registers. -/
theorem setOffsetFollowsItsRule : Obligations.SetOffsetFollowsItsRule := by
  intro s r v hf
  rw [exec_setOffset_eq hf]
  refine ⟨rfl, fun hr => if_pos hr, fun hr hv => ?_, fun hr h0 hmax => ?_⟩
  · rw [if_neg hr, if_pos hv]
    rfl
  · rw [if_neg hr, if_neg (by omega)]
    refine ⟨_, rfl, ?_, fun q hq => s.pointer_setPointer_other _ hq,
      congrArg (·.setResult .unit) (s.setPointer_eq r _)⟩
    obtain ⟨old, hold⟩ := Option.ne_none_iff_exists'.1 hr
    exact (s.pointer_setPointer_same r _).trans (by rw [hold]; rfl)

/-- Settles O19: the invariant bounds every pointer register. -/
theorem getOffsetFollowsItsRule : Obligations.GetOffsetFollowsItsRule :=
  fun _ _ hf => ⟨rfl, exec_getOffset_none hf, fun _ => exec_getOffset_some hf, fun _ hs => hs.pointer_le⟩

/-- Settles O20: the register check, then the range check, then the sum. -/
theorem ipIncFollowsItsRule : Obligations.IpIncFollowsItsRule := by
  intro s r k hf
  rw [exec_ipInc_eq hf]
  refine ⟨rfl, rfl, fun hr => if_pos hr, fun hr hmax => ?_, fun hr hmax => ?_⟩
  · rw [if_neg (not_not.2 hr), if_pos hmax]
    rfl
  · rw [if_neg (not_not.2 hr), if_neg (Nat.not_lt.2 hmax)]
    rfl

/-- Settles O22: the register check, then the update of IP alone. -/
theorem ipResetFollowsItsRule : Obligations.IpResetFollowsItsRule := by
  intro s r hf
  rw [exec_ipReset_eq hf]
  exact ⟨rfl, fun hr => if_pos hr, fun hr => if_neg (not_not.2 hr)⟩

/-- Settles O23: the checks in order, then the read-after-write laws of the segment registers. -/
theorem setBaseFollowsItsRule : Obligations.SetBaseFollowsItsRule := by
  intro s r v hf
  rw [exec_setBase_eq hf, show (maxBase : Int) = 0xFFFF from rfl]
  refine ⟨rfl, fun hr => if_pos hr, fun hr hv => ?_, fun hr h0 hmax => ?_⟩
  · rw [if_neg hr, if_pos hv]
    rfl
  · rw [if_neg hr, if_neg (by omega)]
    refine ⟨_, rfl, ?_, fun q hq => s.segment_setSegment_other _ hq,
      congrArg (·.setResult .unit) (s.setSegment_eq r _)⟩
    obtain ⟨old, hold⟩ := Option.ne_none_iff_exists'.1 hr
    exact (s.segment_setSegment_same r _).trans (by rw [hold]; rfl)

/-- Settles O24: the invariant bounds every segment register. -/
theorem getBaseFollowsItsRule : Obligations.GetBaseFollowsItsRule :=
  fun _ _ hf => ⟨rfl, exec_getBase_none hf, fun _ => exec_getBase_some hf, fun _ hs => hs.segment_le⟩

/-! ### A run of increments (41_registers.md R142) -/

/-- A run whose first step answers is the rest of the run from that answer. -/
theorem run_succ_of_step {s u : State} (h : step s = .next u) (n : Nat) :
    Host.Core.run core (n + 1) s = Host.Core.run core n u := by
  have hstep : core.step s = .next u := h
  simp only [Host.Core.run, hstep]

/-- The step that takes an `IP_INC IP, 1` off the stream, while IP is below MAX(MODE). -/
theorem step_ipInc_one {s : State} {rest : List Byte} (hf : s.fault = none)
    (hs : s.stream = encode (.ipInc 0 1) ++ rest) (hmax : s.ip + 1 ≤ s.cfg.mode.maxOffset) :
    step s = .next (((s.setStream rest).setIp (s.ip + 1)).setResult .unit) := by
  rw [step_of_decode_ok (decode_ok_iff.2 ⟨rfl, hs⟩), exec_ipInc_eq (s := s.setStream rest) hf]
  exact (if_neg (not_not.2 rfl)).trans (if_neg (Nat.not_lt.2 hmax))

/-- Settles O21: each step takes one command off the stream and adds 1. -/
theorem repeatedIncrementsAddUp : Obligations.RepeatedIncrementsAddUp := by
  intro n
  induction n with
  | zero =>
    intro s _ _ hs
    have hempty : s.stream = [] := hs
    exact ⟨s, rfl, by rw [← hempty]; rfl⟩
  | succ n ih =>
    intro s hf hmax hs
    rw [List.replicate_succ, List.flatten_cons] at hs
    rw [run_succ_of_step (step_ipInc_one hf hs (by omega))]
    have hsum : s.ip + 1 + n = s.ip + (n + 1) := by omega
    rw [← hsum] at hmax ⊢
    exact ih _ hf hmax rfl

/-! ### What moves IP (41_registers.md R148) -/

/-- IP is moved by FETCH, IP_INC, IP_RESET and SET_OFFSET of register 0. -/
theorem CommandUpdate.ip_eq_or {i : Instr} {s u : State} (h : CommandUpdate i s u) :
    u.ip = s.ip ∨ (i = .fetch ∧ u.ip = s.ip + 1) ∨ (∃ k, i = .ipInc 0 k ∧ u.ip = s.ip + k) ∨
      (i = .ipReset 0 ∧ u.ip = 0) ∨ ∃ v, i = .setOffset 0 v ∧ u.ip = v.toNat := by
  cases h with
  | @offset r v _ hv =>
    rcases setPointer_ip_or s r v.toNat with same | ⟨rfl, moved⟩
    · exact .inl same
    · exact .inr (.inr (.inr (.inr ⟨v, rfl, moved⟩)))
  | @ipAdvance k _ hk => exact .inr (.inr (.inl ⟨k, rfl, rfl⟩))
  | ipClear => exact .inr (.inr (.inr (.inl ⟨rfl, rfl⟩)))
  | fetchDone hip => exact .inr (.inl ⟨rfl, by simp⟩)
  | _ => exact .inl (by simp)

/-- A SET_OFFSET that moves IP has passed its range check (41_registers.md R140). -/
theorem nonneg_of_exec_setOffset {r : Nat} {v : Int} {s t : State} (h : exec (.setOffset r v) s = .next t)
    (hip : t.ip ≠ s.ip) : 0 ≤ v := by
  rcases exec_next h with ⟨f, _, rfl⟩ | ⟨_, rfl | rfl | ⟨h0, _, _⟩⟩
  · exact absurd rfl hip
  · exact absurd rfl hip
  · exact absurd rfl hip
  · exact h0

/-- Settles O25: the updates that reach IP, each with its value. -/
theorem onlyFourCommandsMoveIp : Obligations.OnlyFourCommandsMoveIp := by
  intro i s t h hip
  obtain ⟨u, _, _, hu, rfl⟩ := exec_update h
  rcases hu.ip_eq_or.resolve_left hip with fetch | inc | reset | ⟨v, rfl, moved⟩
  · exact .inl fetch
  · exact .inr (.inl inc)
  · exact .inr (.inr (.inl reset))
  · have hv : 0 ≤ v := nonneg_of_exec_setOffset h hip
    exact .inr (.inr (.inr ⟨v, rfl, by simp [moved, hv]⟩))

end Sys2Proof.Machine

/-! ## Gates and decoder: the gates, TRUTH_TABLE and the decode terms (42_decoder.md) -/

namespace Sys2Proof.Machine

/-! ### NOT, AND and OR (42_decoder.md R160 to R162) -/

section
variable {s : State} {a b : Byte}

theorem exec_notGate_illegal (hf : s.fault = none) (ha : a ≠ 0 ∧ a ≠ 1) :
    exec (.notGate a) s = .next (s.raised (.illegalOperand a.toNat)) := by
  simp [exec, execNotGate, issue_running hf, (bitOfByte_eq_none_iff a).2 ha, raise_eq_raised]

theorem exec_notGate_bit (hf : s.fault = none) (ha : a = 0 ∨ a = 1) :
    exec (.notGate a) s = .next (s.setResult (.bit !(a == 1))) := by
  simp [exec, execNotGate, issue_running hf, bitOfByte_of_bit ha, ret, gateNot]

/-- `A` is checked first, so `B` does not matter. -/
theorem twoInputGate_illegal_left (g : Bit → Bit → Bit) (ha : a ≠ 0 ∧ a ≠ 1) :
    twoInputGate g a b s = .next (s.raised (.illegalOperand a.toNat)) := by
  simp [twoInputGate, (bitOfByte_eq_none_iff a).2 ha, raise_eq_raised]

theorem twoInputGate_illegal_right (g : Bit → Bit → Bit) (ha : a = 0 ∨ a = 1) (hb : b ≠ 0 ∧ b ≠ 1) :
    twoInputGate g a b s = .next (s.raised (.illegalOperand b.toNat)) := by
  simp [twoInputGate, bitOfByte_of_bit ha, (bitOfByte_eq_none_iff b).2 hb, raise_eq_raised]

theorem twoInputGate_bits (g : Bit → Bit → Bit) (ha : a = 0 ∨ a = 1) (hb : b = 0 ∨ b = 1) :
    twoInputGate g a b s = .next (s.setResult (.bit (g (a == 1) (b == 1)))) := by
  simp [twoInputGate, bitOfByte_of_bit ha, bitOfByte_of_bit hb, ret]

theorem exec_andGate_eq (hf : s.fault = none) : exec (.andGate a b) s = twoInputGate gateAnd a b s :=
  issue_running hf _

theorem exec_orGate_eq (hf : s.fault = none) : exec (.orGate a b) s = twoInputGate gateOr a b s :=
  issue_running hf _

end

/-- Settles O28: a byte is no bit, 0 or 1. -/
theorem notGateFollowsItsTable : Obligations.NotGateFollowsItsTable := by
  intro s a hf
  refine ⟨rfl, fun h0 h1 => exec_notGate_illegal hf ⟨h0, h1⟩, ?_, ?_⟩
  · rintro rfl
    exact exec_notGate_bit hf (.inl rfl)
  · rintro rfl
    exact exec_notGate_bit hf (.inr rfl)

/-- Settles O29: the operand checks AND shares with OR, then its own gate. -/
theorem andGateFollowsItsTable : Obligations.AndGateFollowsItsTable := by
  intro s a b hf
  rw [exec_andGate_eq hf]
  refine ⟨rfl, fun h0 h1 => twoInputGate_illegal_left _ ⟨h0, h1⟩,
    fun ha h0 h1 => twoInputGate_illegal_right _ ha ⟨h0, h1⟩, fun ha hb => ?_⟩
  have table : gateAnd (a == 1) (b == 1) = decide (a = 1 ∧ b = 1) := (Bool.decide_and _ _).symm
  exact table ▸ twoInputGate_bits gateAnd ha hb

/-- Settles O30: the operand checks OR shares with AND, then its own gate. -/
theorem orGateFollowsItsTable : Obligations.OrGateFollowsItsTable := by
  intro s a b hf
  rw [exec_orGate_eq hf]
  refine ⟨rfl, fun h0 h1 => twoInputGate_illegal_left _ ⟨h0, h1⟩,
    fun ha h0 h1 => twoInputGate_illegal_right _ ha ⟨h0, h1⟩, fun ha hb => ?_⟩
  have table : gateOr (a == 1) (b == 1) = decide (a = 1 ∨ b = 1) := (Bool.decide_or _ _).symm
  exact table ▸ twoInputGate_bits gateOr ha hb

/-! ### CASCADE_AND (42_decoder.md R163) -/

/-- The first byte that is no bit is the one that only bits stand before. -/
theorem firstBadBit_append_cons {pre post : List Byte} {e : Byte} (hpre : ∀ x ∈ pre, x = 0 ∨ x = 1)
    (he : e ≠ 0 ∧ e ≠ 1) : firstBadBit (pre ++ e :: post) = some e := by
  have hbits : firstBadBit pre = none :=
    List.find?_eq_none.2 fun x hx => by simp [bitOfByte_of_bit (hpre x hx)]
  unfold firstBadBit at hbits ⊢
  simp [hbits, (bitOfByte_eq_none_iff e).2 he]

theorem firstBadBit_eq_none {bits : List Byte} (h : ∀ x ∈ bits, x = 0 ∨ x = 1) : firstBadBit bits = none :=
  List.find?_eq_none.2 fun x hx => by simp [bitOfByte_of_bit (h x hx)]

theorem bitsOfBytes_eq_map {bits : List Byte} (h : ∀ x ∈ bits, x = 0 ∨ x = 1) :
    bitsOfBytes bits = bits.map (· == 1) := by
  unfold bitsOfBytes
  rw [← List.filterMap_eq_map]
  exact List.filterMap_congr fun x hx => bitOfByte_of_bit (h x hx)

/-- CASCADE_AND of bit bytes is 1 exactly when every byte is 1. -/
theorem cascade_bitsOfBytes {bits : List Byte} (h : ∀ x ∈ bits, x = 0 ∨ x = 1) :
    cascade (bitsOfBytes bits) = decide (∀ x ∈ bits, x = 1) := by
  rw [cascade_eq_all, bitsOfBytes_eq_map h, Bool.eq_iff_iff]
  simp

section
variable {s : State} {bits : List Byte}

/-- The count is checked first, so the elements do not matter. -/
theorem exec_cascadeAnd_arity (hf : s.fault = none) (hlen : bits.length < 2) :
    exec (.cascadeAnd bits) s = .next (s.raised (.arityError bits.length)) := by
  simp [exec, execCascadeAnd, issue_running hf, hlen, raise_eq_raised]

theorem exec_cascadeAnd_illegal (hf : s.fault = none) (hlen : 2 ≤ bits.length) {e : Byte}
    (he : firstBadBit bits = some e) : exec (.cascadeAnd bits) s = .next (s.raised (.illegalOperand e.toNat)) := by
  simp [exec, execCascadeAnd, issue_running hf, Nat.not_lt.2 hlen, he, raise_eq_raised]

theorem exec_cascadeAnd_bits (hf : s.fault = none) (hlen : 2 ≤ bits.length)
    (hbits : ∀ x ∈ bits, x = 0 ∨ x = 1) :
    exec (.cascadeAnd bits) s = .next (s.setResult (.bit (decide (∀ x ∈ bits, x = 1)))) := by
  rw [← cascade_bitsOfBytes hbits]
  simp [exec, execCascadeAnd, issue_running hf, Nat.not_lt.2 hlen, firstBadBit_eq_none hbits, ret]

end

/-- Settles O31: the count, then the first byte that is no bit, then the fold of AND. -/
theorem cascadeAndFollowsItsRule : Obligations.CascadeAndFollowsItsRule := by
  intro s bits hf
  refine ⟨rfl, exec_cascadeAnd_arity hf, fun pre e post hlen hbits hpre h0 h1 => ?_, exec_cascadeAnd_bits hf⟩
  exact exec_cascadeAnd_illegal hf hlen (hbits ▸ firstBadBit_append_cons hpre ⟨h0, h1⟩)

/-! ### TRUTH_TABLE: rows and numerals (42_decoder.md R164 and R165) -/

/-- A row read as a binary numeral, most significant bit first (R164). -/
def rowValue (row : List Bit) : Nat := row.foldl (fun acc b => 2 * acc + b.toNat) 0

theorem rowValue_concat (row : List Bit) (b : Bit) : rowValue (row ++ [b]) = 2 * rowValue row + b.toNat := by
  simp [rowValue]

/-- The last bit of a row is the lowest bit of its number, and the bits before it are the row of half the number. -/
theorem truthRow_succ (n i : Nat) : truthRow (n + 1) i = truthRow n (i / 2) ++ [i.testBit 0] := by
  simp only [truthRow, List.range_succ, List.map_append, List.map_singleton, Nat.add_sub_cancel, Nat.sub_self]
  congr 1
  refine List.map_congr_left fun k hk => ?_
  have hk : k < n := List.mem_range.1 hk
  rw [Nat.testBit_div_two, show n - 1 - k + 1 = n - k by omega]

/-- Row `i` read as a numeral is `i`. -/
theorem rowValue_truthRow {n i : Nat} (h : i < 2 ^ n) : rowValue (truthRow n i) = i := by
  induction n generalizing i with
  | zero => exact (Nat.lt_one_iff.1 h).symm
  | succ n ih =>
    have half : i / 2 < 2 ^ n := by omega
    rw [truthRow_succ, rowValue_concat, ih half, Nat.toNat_testBit]
    omega

theorem rowValue_lt (row : List Bit) : rowValue row < 2 ^ row.length := by
  induction row using List.reverseRecOn with
  | nil => exact Nat.one_pos
  | append_singleton row b ih =>
    have hb : b.toNat ≤ 1 := b.toNat_le
    rw [rowValue_concat, List.length_append, List.length_singleton, Nat.pow_succ]
    omega

/-- Every pattern is the row of its numeral. -/
theorem truthRow_rowValue (row : List Bit) : truthRow row.length (rowValue row) = row := by
  induction row using List.reverseRecOn with
  | nil => rfl
  | append_singleton row b ih =>
    have hlow : (2 * rowValue row + b.toNat).testBit 0 = b := by cases b <;> simp
    have hhigh : (2 * rowValue row + b.toNat) / 2 = rowValue row := by
      have hb : b.toNat ≤ 1 := b.toNat_le
      omega
    rw [List.length_append, List.length_singleton, truthRow_succ, rowValue_concat, hlow, hhigh, ih]

theorem truthTableRows_length (n : Nat) : (truthTableRows n).length = 2 ^ n := by simp [truthTableRows]

theorem truthTableRows_getElem?_eq_some_iff {n i : Nat} {row : List Bit} :
    (truthTableRows n)[i]? = some row ↔ i < 2 ^ n ∧ truthRow n i = row := by
  simp [truthTableRows, List.getElem?_eq_some_iff]

theorem truthTableRows_nodup (n : Nat) : (truthTableRows n).Nodup :=
  List.nodup_range.map_on fun _ hi _ hj => truthRow_injective (List.mem_range.1 hi) (List.mem_range.1 hj)

theorem mem_truthTableRows_iff {n : Nat} {row : List Bit} : row ∈ truthTableRows n ↔ row.length = n := by
  refine ⟨fun h => ?_, ?_⟩
  · obtain ⟨i, _, rfl⟩ := List.mem_map.1 h
    exact truthRow_length n i
  · rintro rfl
    exact List.mem_map.2 ⟨rowValue row, List.mem_range.2 (rowValue_lt row), truthRow_rowValue row⟩

/-- Settles O32: rows and numerals are inverse, so the rows are all the patterns, each once. -/
theorem truthTableEnumeratesEveryPattern : Obligations.TruthTableEnumeratesEveryPattern := by
  intro s n hf
  refine ⟨rfl, truthTableRows n, issue_running hf _, truthTableRows_length n,
    fun row => mem_truthTableRows_iff.1, fun i row hrow k hk => ?bit, fun i row hrow => ?numeral, fun x hx => ?once⟩
  case bit =>
    obtain ⟨_, rfl⟩ := truthTableRows_getElem?_eq_some_iff.1 hrow
    exact truthRow_getElem? n i k hk
  case numeral =>
    obtain ⟨hi, rfl⟩ := truthTableRows_getElem?_eq_some_iff.1 hrow
    exact rowValue_truthRow hi
  case once => exact List.count_eq_one_of_mem (truthTableRows_nodup n) (mem_truthTableRows_iff.2 hx)

/-! ### Decode terms (42_decoder.md R170) -/

/-- The term of row `r` compares the input with the row. -/
theorem decodeTerm_eq_decide (c : Config) (r : Nat) {input : List Bit} (h : input.length = c.chipSelectBits) :
    decodeTerm c r input = decide (truthRow c.chipSelectBits r = input) := by
  rw [decodeTerm, cascade_eq_all, Bool.eq_iff_iff, decide_eq_true_iff]
  refine ⟨eq_of_all_zipWith_beq (by rw [truthRow_length, h]), fun hrow => ?_⟩
  rw [hrow]
  exact all_zipWith_beq_self input

/-- A pattern is row `i` exactly when its bits are those of `i`. -/
theorem truthRow_eq_iff {n i : Nat} {x : List Bit} (h : x.length = n) :
    truthRow n i = x ↔ ∀ k, k < n → x[k]? = some (i.testBit (n - 1 - k)) := by
  constructor
  · rintro rfl k hk
    exact truthRow_getElem? n i k hk
  · intro hbits
    refine List.ext_getElem? fun k => ?_
    by_cases hk : k < n
    · rw [hbits k hk, truthRow_getElem? n i k hk]
    · simp [h, Nat.not_lt.1 hk]

/-- On the pattern of a chip, the term of a chip is 1 exactly when they are the same. -/
theorem decodeTerm_truthRow {c : Config} (hc : ConfigValid c) {r x : Nat} (hr : r < c.numberOfChips)
    (hx : x < c.numberOfChips) : decodeTerm c r (truthRow c.chipSelectBits x) = decide (r = x) := by
  rw [hc.numberOfChips] at hr hx
  rw [decodeTerm_eq_decide c r (truthRow_length _ x), decide_eq_decide]
  exact ⟨truthRow_injective hr hx, fun h => h ▸ rfl⟩

/-- Settles O34: the term compares its input with the row, and the rows of chips are distinct. -/
theorem decodeTermSelectsItsOwnRow : Obligations.DecodeTermSelectsItsOwnRow := by
  intro c r hc hr
  refine ⟨fun input hlen => ?_, fun x hx => decodeTerm_truthRow hc hr hx⟩
  rw [decodeTerm_eq_decide c r hlen, decide_eq_decide]
  exact truthRow_eq_iff hlen

/-! ### DEC_LOOKUP and DEC_ONEHOT (42_decoder.md R172 and R173) -/

theorem chipIndex_eq_none {c : Config} {a : Int} (h : a < 0 ∨ (c.numberOfChips : Int) ≤ a) :
    chipIndex c a = none :=
  if_neg (by omega)

theorem chipIndex_eq_some {c : Config} {a : Int} (h0 : 0 ≤ a) (hN : a < (c.numberOfChips : Int)) :
    chipIndex c a = some a.toNat :=
  if_pos ⟨h0, hN⟩

/-- Output `r` is row `r`'s term on the input's pattern. -/
theorem oneHotOutput_getElem? {c : Config} (hc : ConfigValid c) {r x : Nat} (hr : r < c.numberOfChips)
    (hx : x < c.numberOfChips) : (oneHotOutput c x)[r]? = some (decide (r = x)) := by
  simp [oneHotOutput, hr, decodeTerm_truthRow hc hr hx]

section
variable {s : State} {a : Int}

theorem exec_decLookup_outside (hf : s.fault = none) (h : a < 0 ∨ (s.cfg.numberOfChips : Int) ≤ a) :
    exec (.decLookup a) s = .next (s.raised (.indexError a)) := by
  simp [exec, execDecLookup, issue_running hf, chipIndex_eq_none h, raise_eq_raised]

/-- Every chip is selected, so the lookup answers the index itself. -/
theorem exec_decLookup_chip (hf : s.fault = none) (h0 : 0 ≤ a) (hN : a < (s.cfg.numberOfChips : Int)) :
    exec (.decLookup a) s = .next (s.setResult (.chip (some a.toNat))) := by
  simp [exec, execDecLookup, issue_running hf, chipIndex_eq_some h0 hN, chipSelection_eq, ret]

theorem exec_decOnehot_outside (hf : s.fault = none) (h : a < 0 ∨ (s.cfg.numberOfChips : Int) ≤ a) :
    exec (.decOnehot a) s = .next (s.raised (.indexError a)) := by
  simp [exec, execDecOnehot, issue_running hf, chipIndex_eq_none h, raise_eq_raised]

theorem exec_decOnehot_chip (hf : s.fault = none) (h0 : 0 ≤ a) (hN : a < (s.cfg.numberOfChips : Int)) :
    exec (.decOnehot a) s = .next (s.setResult (.bits (oneHotOutput s.cfg a.toNat))) := by
  simp [exec, execDecOnehot, issue_running hf, chipIndex_eq_some h0 hN, ret]

end

/-- Settles O35: the range check, then the selection of the chip. -/
theorem decLookupFollowsItsRule : Obligations.DecLookupFollowsItsRule :=
  fun _ _ hf => ⟨rfl, exec_decLookup_outside hf, exec_decLookup_chip hf⟩

/-- Settles O36: each output is its row's decode term on the input's pattern. -/
theorem decOnehotFollowsItsRule : Obligations.DecOnehotFollowsItsRule := by
  intro s x hc hf
  refine ⟨rfl, exec_decOnehot_outside hf, fun h0 hN => ?_⟩
  have hx : x.toNat < s.cfg.numberOfChips := by omega
  exact ⟨_, exec_decOnehot_chip hf h0 hN, oneHotOutput_length _ _, fun r hr => oneHotOutput_getElem? hc hr hx⟩

end Sys2Proof.Machine

/-! ## Memory's ports: RAW_STORE, MEM_WRITE, RAW_LOAD and the read response (43_memory_ops.md) -/

namespace Sys2Proof.Machine

/-! ### A word as the sum of its bytes (20_memory.md R62) -/

/-- MemRead is the sum of R62: each byte by its place value. -/
theorem State.memRead_eq_sum (s : State) (a n : Nat) :
    s.memRead a n = ((List.range n).map fun i => (s.byteAt (a + i)).toNat * 2 ^ (8 * i)).sum := by
  induction n generalizing a with
  | zero => rfl
  | succ n ih =>
    have shift (i : Nat) : (s.byteAt (a + (i + 1))).toNat * 2 ^ (8 * (i + 1)) =
        256 * ((s.byteAt (a + 1 + i)).toNat * 2 ^ (8 * i)) := by
      rw [Nat.add_right_comm a 1 i, Nat.add_assoc a i 1]
      ring
    rw [State.memRead, ih, List.range_succ_eq_map]
    simp [Function.comp_def, shift, List.sum_map_mul_left]

/-! ### The store that RAW_STORE and MEM_WRITE share (43_memory_ops.md R180 and R182) -/

section
variable {s : State} {a v : Int}

theorem storeWord_outside (h : a < 0 ∨ (s.cfg.totalBytes : Int) < a + s.cfg.wordBytes) :
    storeWord s a v = .next (s.raised (.bufferBoundsFault a)) :=
  if_pos (by unfold WordInBuffer; omega)

/-- The bounds are checked before the width. -/
theorem storeWord_tooWide (h0 : 0 ≤ a) (hend : a + s.cfg.wordBytes ≤ (s.cfg.totalBytes : Int))
    (hv : v < 0 ∨ (2 ^ (8 * s.cfg.wordBytes) : Int) ≤ v) :
    storeWord s a v = .next (s.raised (.valueWidthFault v)) := by
  have hwide : ¬ FitsWord s.cfg v := by
    push_cast [FitsWord, Config.wordBits]
    omega
  rw [storeWord, if_neg (not_not.2 ⟨h0, hend⟩), if_pos hwide, raise_eq_raised]

theorem storeWord_fits (h0 : 0 ≤ a) (hend : a + s.cfg.wordBytes ≤ (s.cfg.totalBytes : Int)) (hv0 : 0 ≤ v)
    (hv : v < (2 ^ (8 * s.cfg.wordBytes) : Int)) :
    storeWord s a v = .next ((s.memWrite a.toNat s.cfg.wordBytes v.toNat).setResult .unit) := by
  have hfits : FitsWord s.cfg v := ⟨hv0, by exact_mod_cast hv⟩
  rw [storeWord, if_neg (not_not.2 ⟨h0, hend⟩), if_neg (not_not.2 hfits), ret]

/-- A store that passes its checks writes the value's bytes, least significant first, and no other byte. -/
theorem storeWord_writes_littleEndian (h0 : 0 ≤ a) (hend : a + s.cfg.wordBytes ≤ (s.cfg.totalBytes : Int))
    (hv0 : 0 ≤ v) (hv : v < (2 ^ (8 * s.cfg.wordBytes) : Int)) :
    ∃ t, storeWord s a v = .next t ∧
      (∀ i, i < s.cfg.wordBytes → t.byteAt (a.toNat + i) = BitVec.ofNat 8 (v.toNat / 2 ^ (8 * i))) ∧
      (∀ b, (b < a.toNat ∨ a.toNat + s.cfg.wordBytes ≤ b) → t.byteAt b = s.byteAt b) ∧
      t = { s with mem := t.mem, result := some .unit } := by
  refine ⟨_, storeWord_fits h0 hend hv0 hv, fun i hi => ?_, fun b hb => ?_, rfl⟩
  · rw [Nat.pow_mul]
    exact s.byteAt_memWrite_add a.toNat v.toNat hi
  · exact (s.byteAt_memWrite _ _ _ b).trans (if_neg (by omega))

/-! ### The commands on a running machine -/

theorem exec_rawStore_eq (hf : s.fault = none) : exec (.rawStore a v) s = storeWord s a v :=
  issue_running hf _

theorem exec_memWrite_outside (hf : s.fault = none) (h : a < 0 ∨ (s.cfg.totalBytes : Int) ≤ a) :
    exec (.memWrite a v) s = .next (s.raised (.addressOutOfRangeError a)) :=
  (issue_running hf _).trans (if_pos h)

/-- From a start address in the buffer, MEM_WRITE is the same checked store as RAW_STORE. -/
theorem exec_memWrite_eq (hf : s.fault = none) (h0 : 0 ≤ a) (hT : a < (s.cfg.totalBytes : Int)) :
    exec (.memWrite a v) s = storeWord s a v :=
  (issue_running hf _).trans (if_neg (by omega))

theorem exec_rawLoad_outside (hf : s.fault = none) (h : a < 0 ∨ (s.cfg.totalBytes : Int) < a + s.cfg.wordBytes) :
    exec (.rawLoad a) s = .next (s.raised (.bufferBoundsFault a)) :=
  (issue_running hf _).trans (if_pos (by unfold WordInBuffer; omega))

theorem exec_rawLoad_word (hf : s.fault = none) (h0 : 0 ≤ a)
    (hend : a + s.cfg.wordBytes ≤ (s.cfg.totalBytes : Int)) :
    exec (.rawLoad a) s = .next (s.setResult (.nat (s.memRead a.toNat s.cfg.wordBytes))) :=
  (issue_running hf _).trans (if_neg (not_not.2 ⟨h0, hend⟩))

end

/-- Settles O37: the command is the checked store. -/
theorem rawStoreFollowsItsRule : Obligations.RawStoreFollowsItsRule := by
  intro s a v hf
  rw [exec_rawStore_eq hf]
  exact ⟨rfl, storeWord_outside, storeWord_tooWide, storeWord_writes_littleEndian⟩

/-- Settles O38: the start address is checked first, and then the command is the checked store. -/
theorem memWriteFollowsItsRule : Obligations.MemWriteFollowsItsRule := by
  intro s a v hf
  refine ⟨rfl, exec_memWrite_outside hf, fun h0 hT hend => ?_, fun h0 hT => ?_, fun h0 hT => ?_⟩ <;>
    rw [exec_memWrite_eq hf h0 hT]
  · exact storeWord_outside (.inr hend)
  · exact storeWord_tooWide h0
  · exact storeWord_writes_littleEndian h0

/-- Settles O39: MemRead is the sum of the word's bytes, and it is below 2^WORD_BITS. -/
theorem rawLoadFollowsItsRule : Obligations.RawLoadFollowsItsRule :=
  fun s _ hf => ⟨rfl, exec_rawLoad_outside hf, fun h0 hend =>
    ⟨_, exec_rawLoad_word hf h0 hend, s.memRead_eq_sum _ _, s.memRead_lt _ _⟩⟩

/-- Settles O16: every chip is selected and the masked word lies in the buffer, so only three outcomes are left. -/
theorem readResponseFollowsItsRule : Obligations.ReadResponseFollowsItsRule := by
  intro s hc
  refine ⟨memoryReadResponse_silent, fun _ => memoryReadResponse_outOfRange, ?_⟩
  rintro a w hal ha rfl
  exact memoryReadResponse_answers hal ha (hc.readPath_in_buffer a)

end Sys2Proof.Machine

/-! ## The Microprocessor: FETCH, DECODE, and a preloaded text through both (44_cpu.md) -/

namespace Sys2Proof.Machine

/-! ### FETCH (44_cpu.md R200 and R201) -/

section
variable {s : State}

/-- The mode is checked before anything is driven. -/
theorem exec_fetch_wrongMode (hc : ConfigValid s.cfg) (hf : s.fault = none) (hm : s.cfg.mode ≠ .realMode) :
    exec .fetch s = .next (s.raised (.modeNotSupported s.cfg.mode)) :=
  (execFetch_eq hc hf).trans (if_pos hm)

/-- The address is checked by Memory's response, so its bus and READ have been driven. -/
theorem exec_fetch_outOfRange (hc : ConfigValid s.cfg) (hf : s.fault = none) (hm : s.cfg.mode = .realMode)
    (hN : s.cfg.numberOfChips ≤ physicalAddress s) :
    exec .fetch s = .next (((beginFetch s).setControl .read true).raised (.indexError (physicalAddress s))) := by
  rw [exec, execFetch_eq hc hf, if_neg (not_not.2 hm), if_pos hN, raise_eq_raised]

/-- IP is checked last, so the word has been read and queued. -/
theorem exec_fetch_ipOverflows (hc : ConfigValid s.cfg) (hf : s.fault = none) (hm : s.cfg.mode = .realMode)
    (hN : physicalAddress s < s.cfg.numberOfChips) (hip : s.cfg.mode.maxOffset < s.ip + 1) :
    exec .fetch s = .next ((queuedFetch s).raised (.offsetRangeError (s.ip + 1 : Nat))) := by
  rw [exec, execFetch_eq hc hf, if_neg (not_not.2 hm), if_neg (Nat.not_le.2 hN), if_pos hip, raise_eq_raised]

theorem exec_fetch_completes (hc : ConfigValid s.cfg) (hf : s.fault = none) (hm : s.cfg.mode = .realMode)
    (hN : physicalAddress s < s.cfg.numberOfChips) (hip : s.ip + 1 ≤ s.cfg.mode.maxOffset) :
    exec .fetch s =
      .next ((((queuedFetch s).setIp (s.ip + 1)).setBiu .idle).setResult (.status s.hasRoom)) := by
  rw [exec, execFetch_eq hc hf, if_neg (not_not.2 hm), if_neg (Nat.not_le.2 hN), if_neg (Nat.not_lt.2 hip), ret]

end

/-- Settles O44: the checks in order, each with the state that FETCH had reached by then. -/
theorem fetchFollowsItsRule : Obligations.FetchFollowsItsRule := by
  intro s hc hf
  refine ⟨rfl, exec_fetch_wrongMode hc hf, fun hm hN => ?outOfRange, ?completes, ?ipOverflows⟩
  case outOfRange =>
    rw [exec_fetch_outOfRange hc hf hm hN, beginFetch_setControl_eq]
    rfl
  case completes =>
    rintro w hm hN rfl hip
    rw [exec_fetch_completes hc hf hm hN hip, queuedFetch_eq]
    rfl
  case ipOverflows =>
    rintro w hm hN rfl hip
    rw [exec_fetch_ipOverflows hc hf hm hN hip, queuedFetch_eq]
    rfl

/-! ### DECODE (44_cpu.md R202) -/

section
variable {s : State}

theorem exec_decode_empty (hf : s.fault = none) (hq : s.queue = []) :
    exec .decode s = .next (s.setResult (.decoded none)) := by
  simp [exec, execDecode, issue_running hf, hq, ret]

theorem exec_decode_head (hf : s.fault = none) {w : Nat} {q : List Nat} (hq : s.queue = w :: q) :
    exec .decode s =
      .next ((s.setQueue q).setResult (.decoded (some (w, Config.dec w s.cfg.wordBits)))) := by
  simp [exec, execDecode, issue_running hf, hq, ret]

end

/-- Settles O45. -/
theorem decodeFollowsItsRule : Obligations.DecodeFollowsItsRule :=
  fun _ hf => ⟨rfl, rfl, exec_decode_empty hf, fun _ _ => exec_decode_head hf⟩

/-! ### A preloaded text (44_cpu.md R204) -/

@[simp] theorem internalAddress_zero (c : Config) : internalAddress c 0 = 0 := Nat.zero_and _

/-- There is a chip (70_reset_and_hazards.md R251). -/
theorem ConfigValid.numberOfChips_pos {c : Config} (h : ConfigValid c) : 0 < c.numberOfChips :=
  h.numberOfChips ▸ Nat.two_pow_pos _

/-- The buffer holds the word at location 0 (20_memory.md R81). -/
theorem ConfigValid.wordBytes_le_totalBytes {c : Config} (h : ConfigValid c) : c.wordBytes ≤ c.totalBytes := by
  simpa using h.readPath_in_buffer 0

/-- A newly constructed machine whose first word has been written. -/
def preloaded (c : Config) (v : Nat) : State := ((State.initial c).memWrite 0 c.wordBytes v).setResult .unit

@[simp] theorem preloaded_cfg (c : Config) (v : Nat) : (preloaded c v).cfg = c := rfl
@[simp] theorem preloaded_queue (c : Config) (v : Nat) : (preloaded c v).queue = [] := rfl
@[simp] theorem preloaded_fault (c : Config) (v : Nat) : (preloaded c v).fault = none := rfl

/-- SEG and IP are 0 (70_reset_and_hazards.md R259), so the first FETCH reads where the word was written. -/
@[simp] theorem physicalAddress_preloaded (c : Config) (v : Nat) : physicalAddress (preloaded c v) = 0 := rfl

section
variable {c : Config} {v : Nat}

theorem exec_memWrite_initial (hc : ConfigValid c) (hv : v < 2 ^ c.wordBits) :
    exec (.memWrite 0 v) (State.initial c) = .next (preloaded c v) := by
  have hpos := hc.wordBytes_pos
  have hword := hc.wordBytes_le_totalBytes
  have hT : (0 : Int) < c.totalBytes := by omega
  have hend : (0 : Int) + c.wordBytes ≤ c.totalBytes := by omega
  rw [exec_memWrite_eq rfl le_rfl hT]
  exact storeWord_fits le_rfl hend (Int.natCast_nonneg v) (by exact_mod_cast hv)

theorem fetchedWord_preloaded (hv : v < 2 ^ c.wordBits) : fetchedWord (preloaded c v) = v := by
  rw [fetchedWord, physicalAddress_preloaded, internalAddress_zero]
  exact wordReadsBackAsWritten (State.initial c) _ 0 c.wordBytes v hv fun _ _ => rfl

/-- The first FETCH of a preloaded machine queues the preloaded word. -/
theorem exec_fetch_preloaded (hc : ConfigValid c) (hm : c.mode = .realMode) (hv : v < 2 ^ c.wordBits) :
    ∃ t, exec .fetch (preloaded c v) = .next t ∧ t.result = some (.status true) ∧
      t.cfg = c ∧ t.fault = none ∧ t.queue = [v] := by
  have hip : 0 + 1 ≤ c.mode.maxOffset := by rw [hm]; decide
  refine ⟨_, exec_fetch_completes (s := preloaded c v) hc rfl hm hc.numberOfChips_pos hip, rfl, ?_⟩
  simp [fetchedWord_preloaded hv, Config.queueCapacity]

end

/-- Settles O46: the word at location 0 is fetched as it was written, and the round trip decodes it. -/
theorem preloadedTextIsFetchedAndDecoded : Obligations.PreloadedTextIsFetchedAndDecoded := by
  intro enc c s text hround hs hm hw henc
  obtain ⟨hc, rfl⟩ := construct_next hs
  have hbits : c.wordBits = 8 := by rw [Config.wordBits, hw]
  have hv : enc text 8 < 2 ^ c.wordBits := by rwa [hbits]
  have htext : Config.dec (enc text 8) 8 = text := hround text 8 (.inl rfl) henc
  obtain ⟨t, hfetch, hstatus, rfl, hf, hq⟩ := exec_fetch_preloaded hc hm hv
  refine ⟨_, t, _, exec_memWrite_initial hc hv, rfl, hfetch, hstatus, exec_decode_head hf hq, ?_⟩
  simp [hbits, htext]

end Sys2Proof.Machine

/-! ## Exceptions: illegal bytes, a halted machine, and which faults a command raises (60_exceptions.md) -/

namespace Sys2Proof.Machine

/-! ### Bytes that are no command, and a step of a halted machine (60_exceptions.md R224, R231 and R234) -/

theorem step_of_stream_nil {s : State} (h : s.stream = []) : step s = .next s := by
  simp [step, nextCommand, h]

/-- Settles O6. -/
theorem stepWithoutCommandChangesNothing : Obligations.StepWithoutCommandChangesNothing :=
  fun _ h => step_of_stream_nil h

/-- Settles O8: a stream that decodes would begin with the encoding of the command it decodes to. -/
theorem bytesThatEncodeNoCommandAreIllegal : Obligations.BytesThatEncodeNoCommandAreIllegal := by
  intro s op bs hf hs hno
  cases hd : decode (op :: bs) with
  | error e => exact ⟨_, step_of_decode_error hf hs hd, rfl⟩
  | ok parsed =>
    obtain ⟨hwf, hbytes⟩ := decode_ok_iff.1 hd
    exact absurd (hs.trans hbytes) (hno _ _ hwf)

/-- A halted machine answers any bytes with its fault, whether they are a command or not (60_exceptions.md R231). -/
theorem step_halted {s : State} {f : CoreFault} (hf : s.fault = some f) (hs : s.stream ≠ []) :
    ∃ rest, step s = .next ((s.setStream rest).setResult (.fault f)) := by
  obtain ⟨op, bs, hcons⟩ := List.exists_cons_of_ne_nil hs
  cases hd : decode s.stream with
  | ok parsed => exact ⟨parsed.2, (step_of_decode_ok hd).trans (exec_halted (s := s.setStream parsed.2) parsed.1 hf)⟩
  | error e =>
    rw [hcons] at hd
    refine ⟨[], ?_⟩
    rw [step, hcons, nextCommand_of_decode_error hd]
    exact issue_halted (s := s.setStream []) hf _

/-- Settles O9: an idle step answers the same state, and bytes are answered with the fault. -/
theorem haltedMachineAnswersItsFault : Obligations.HaltedMachineAnswersItsFault := by
  intro s f hf
  refine ⟨fun i => exec_halted i hf, ?_⟩
  by_cases hs : s.stream = []
  · exact ⟨s, step_of_stream_nil hs, rfl, fun hne => absurd hs hne⟩
  · obtain ⟨rest, hstep⟩ := step_halted hf hs
    exact ⟨_, hstep, rfl, fun _ => rfl⟩

/-! ### Which faults a command raises (60_exceptions.md R220, R221 and R233) -/

/-- Any fault on record in `t` is one listed for command `i`, or, in a configuration without the X86 table, the
`InvalidSignalError` of FETCH that no constructed machine raises (70_reset_and_hazards.md R255). -/
def RaisesOnlyListed (i : Instr) (s t : State) : Prop :=
  ∀ f, t.fault = some f → mayRaise i f ∨ (s.cfg.arch ≠ .x86 ∧ f = .invalidSignalError readName)

section
variable {i : Instr} {s u t : State}

theorem RaisesOnlyListed.raised {f : CoreFault} (h : mayRaise i f) : RaisesOnlyListed i s (u.raised f) :=
  fun _ ht => .inl (Option.some.inj ht ▸ h)

/-- A FETCH without a signal table. -/
theorem RaisesOnlyListed.raised_noTable (h : s.cfg.arch ≠ .x86) :
    RaisesOnlyListed i s (u.raised (.invalidSignalError readName)) :=
  fun _ ht => .inr ⟨h, (Option.some.inj ht).symm⟩

theorem RaisesOnlyListed.answered {r : Result} (hu : u.fault = none) : RaisesOnlyListed i s (u.setResult r) :=
  fun f ht => absurd (hu.symm.trans ht) (Option.some_ne_none f).symm

theorem StoreEffect.raisesOnlyListed {a v : Int} (hf : s.fault = none) (hbounds : mayRaise i (.bufferBoundsFault a))
    (hwidth : mayRaise i (.valueWidthFault v)) (h : StoreEffect a v s t) : RaisesOnlyListed i s t := by
  rcases h with rfl | rfl | ⟨_, _, _, rfl⟩
  · exact .raised hbounds
  · exact .raised hwidth
  · exact .answered (by simp [hf])

theorem GateEffect.raisesOnlyListed {a b : Byte} (hf : s.fault = none) (ha : mayRaise i (.illegalOperand a.toNat))
    (hb : mayRaise i (.illegalOperand b.toNat)) (h : GateEffect a b s t) : RaisesOnlyListed i s t := by
  rcases h with rfl | rfl | ⟨y, rfl⟩
  · exact .raised ha
  · exact .raised hb
  · exact .answered hf

/-- Each listed effect of a command raises a fault listed for it, or none. -/
theorem CommandEffect.raisesOnlyListed (hf : s.fault = none) (h : CommandEffect i s t) :
    RaisesOnlyListed i s t := by
  cases i with
  | addrSend a | dataSend d | truthTable n => subst h; exact .answered hf
  | ctrlSend name v =>
    rcases h with rfl | rfl | ⟨line, level, _, rfl⟩ | ⟨a, _, _, _, _, rfl⟩ | ⟨w, _, _, rfl⟩
    · exact .raised (.inl rfl)
    · exact .raised (.inr (.inl rfl))
    · exact .answered (by simp [hf])
    · exact .raised (.inr (.inr ⟨a, rfl⟩))
    · exact .answered (by simp [hf])
  | setOffset r v | setBase r v =>
    rcases h with rfl | rfl | ⟨_, _, rfl⟩
    · exact .raised (.inl rfl)
    · exact .raised (.inr rfl)
    · exact .answered (by simp [hf])
  | ipInc r k =>
    rcases h with rfl | rfl | ⟨_, _, rfl⟩
    · exact .raised (.inl rfl)
    · exact .raised (.inr ⟨_, rfl⟩)
    · exact .answered hf
  | ipReset r =>
    rcases h with rfl | ⟨_, rfl⟩
    · exact .raised rfl
    · exact .answered hf
  | getOffset r | getBase r | notGate a | decLookup a | decOnehot a | rawLoad a =>
    rcases h with rfl | ⟨_, rfl⟩
    · exact .raised rfl
    · exact .answered hf
  | andGate a b | orGate a b => exact GateEffect.raisesOnlyListed hf (.inl rfl) (.inr rfl) h
  | cascadeAnd bits =>
    rcases h with rfl | ⟨e, he, rfl⟩ | ⟨y, rfl⟩
    · exact .raised (.inl rfl)
    · exact .raised (.inr ⟨e, he, rfl⟩)
    · exact .answered hf
  | memWrite a v =>
    rcases h with rfl | h
    · exact .raised (.inl rfl)
    · exact h.raisesOnlyListed hf (.inr (.inl rfl)) (.inr (.inr rfl))
  | rawStore a v => exact StoreEffect.raisesOnlyListed hf (.inl rfl) (.inr rfl) h
  | fetch =>
    rcases h with rfl | ⟨harch, rfl⟩ | ⟨_, rfl⟩ | ⟨_, rfl⟩ | ⟨_, _, rfl⟩
    · exact .raised (.inl ⟨_, rfl⟩)
    · exact .raised_noTable harch
    · exact .raised (.inr (.inl ⟨_, rfl⟩))
    · exact .raised (.inr (.inr ⟨_, rfl⟩))
    · exact .answered (by simp [hf])
  | decode =>
    rcases h with rfl | ⟨w, q, _, rfl⟩
    · exact .answered hf
    · exact .answered hf

end

/-- Settles O10: a valid configuration has the X86 table. -/
theorem commandRaisesOnlyItsListedFaults : Obligations.CommandRaisesOnlyItsListedFaults := by
  intro i s t f hc hf h ht
  rcases (exec_running_next hf h).raisesOnlyListed hf f ht with hlisted | ⟨harch, _⟩
  · exact hlisted
  · exact absurd hc.arch harch

/-- `NoChipSelectedError` is listed for no command (60_exceptions.md R221). -/
theorem not_mayRaise_noChipSelectedError (i : Instr) (a : Nat) : ¬ mayRaise i (.noChipSelectedError a) := by
  cases i <;> simp [mayRaise]

/-- Settles O11: every chip is selected (`chipSelection_eq`), so no effect of a command is this fault. -/
theorem noChipSelectedErrorIsUnreachable : Obligations.NoChipSelectedErrorIsUnreachable := by
  intro i s t a hf h ht
  rcases (exec_running_next hf h).raisesOnlyListed hf _ ht with hlisted | ⟨_, hother⟩
  · exact not_mayRaise_noChipSelectedError i a hlisted
  · cases hother

end Sys2Proof.Machine

/-! ## Construction and the segment base: the reset state, the configuration, and FETCH's limit
(70_reset_and_hazards.md) -/

namespace Sys2Proof.Machine

/-! ### The topology checks (70_reset_and_hazards.md R251) -/

section
variable {c : Config} {k d : Nat}

theorem chipSelectBits_of_pow (h : c.numberOfChips = 2 ^ k) : c.chipSelectBits = k := by
  rw [Config.chipSelectBits, h, Nat.log2_two_pow]

theorem addressingDepth_of_pow (h : c.locPerChip = 2 ^ d) : c.addressingDepth = d := by
  rw [Config.addressingDepth, h, Nat.log2_two_pow]

/-- The checks as R251 words them: N and LOC_PER_CHIP are powers of two of some exponent. -/
theorem topologyOk_iff_exists_pow : c.topologyOk = true ↔
    c.bytesPerChip ≠ 0 ∧ c.totalBytes % c.bytesPerChip = 0 ∧ (∃ k, c.numberOfChips = 2 ^ k) ∧
    (∃ d, c.locPerChip = 2 ^ d) ∧ c.chipSelectBits + c.addressingDepth = c.addressLines := by
  rw [topologyOk_iff]
  constructor
  · rintro ⟨⟨hbytes, hdvd, hchips⟩, ⟨_, hloc⟩, hlines⟩
    exact ⟨hbytes, hdvd, ⟨_, hchips⟩, ⟨_, hloc⟩, hlines⟩
  · rintro ⟨hbytes, hdvd, ⟨k, hchips⟩, ⟨d, hloc⟩, hlines⟩
    refine ⟨⟨hbytes, hdvd, ?_⟩, ⟨?_, ?_⟩, hlines⟩
    · rw [chipSelectBits_of_pow hchips, hchips]
    · exact hloc ▸ (Nat.two_pow_pos d).ne'
    · rw [addressingDepth_of_pow hloc, hloc]

/-- Chips fill the buffer, which holds a word, so no chip is empty. -/
theorem ConfigValid.bytesPerChip_ne_zero (h : ConfigValid c) : c.bytesPerChip ≠ 0 := by
  intro h0
  have hchips := h.chips
  have hword := h.wordBytes_le_totalBytes
  have hpos := h.wordBytes_pos
  rw [h0, Nat.mul_zero] at hchips
  omega

theorem ConfigValid.topologyOk (h : ConfigValid c) : c.topologyOk = true :=
  topologyOk_iff_exists_pow.2
    ⟨h.bytesPerChip_ne_zero, h.chips ▸ Nat.mul_mod_left _ _, ⟨_, h.numberOfChips⟩, ⟨_, h.locations⟩, h.lines⟩

/-- Two decoder inputs select among four chips (70_reset_and_hazards.md R251). -/
theorem ConfigValid.four_le_numberOfChips (h : ConfigValid c) : 4 ≤ c.numberOfChips :=
  h.numberOfChips ▸ Nat.pow_le_pow_right Nat.two_pos h.arity

end

/-! ### How a construction ends (70_reset_and_hazards.md R250 to R252) -/

section
variable {c : Config}

theorem wordSizeOk_iff : c.wordSizeOk = true ↔ c.wordBytes ∈ [1, 2, 4] := by
  simp [Config.wordSizeOk, or_assoc]

theorem construct_otherArch {name : String} (ha : c.arch = .other name) :
    construct c = .refused (.unsupportedArch name) := by
  simp [construct, ha]

theorem construct_wordSize (ha : c.arch = .x86) (hw : c.wordBytes ∉ [1, 2, 4]) :
    construct c = .refused (.unsupportedWordBytes c.wordBytes) := by
  simp [construct, ha, mt wordSizeOk_iff.1 hw]

theorem construct_topology (ha : c.arch = .x86) (hw : c.wordBytes ∈ [1, 2, 4]) (htop : c.topologyOk ≠ true) :
    construct c =
      .fault (.construction (.specMismatchError c.bytesPerChip c.locPerChip c.addressLines)) := by
  simp [construct, ha, wordSizeOk_iff.2 hw, constructionFault, htop]

theorem construct_arity (ha : c.arch = .x86) (hw : c.wordBytes ∈ [1, 2, 4]) (htop : c.topologyOk = true)
    (harity : c.chipSelectBits < 2) : construct c = .fault (.construction (.arityError c.chipSelectBits)) := by
  simp [construct, ha, wordSizeOk_iff.2 hw, constructionFault, htop, harity]

/-- The X86 table has READ, so no check is left after the arity (70_reset_and_hazards.md R255). -/
theorem construct_machine (ha : c.arch = .x86) (hw : c.wordBytes ∈ [1, 2, 4]) (htop : c.topologyOk = true)
    (harity : 2 ≤ c.chipSelectBits) : construct c = .next (State.initial c) := by
  simp [construct, ha, wordSizeOk_iff.2 hw, constructionFault, htop, Nat.not_lt.2 harity, signalOfName_read]

theorem ConfigValid.construct_eq (h : ConfigValid c) : construct c = .next (State.initial c) :=
  construct_machine h.arch (by simpa using h.wordBytes) h.topologyOk h.arity

end

/-- Settles O50: the topology clause is the negation of the checks, and of a topology that fits CSB is `k`. -/
theorem constructionChecksTheConfiguration : Obligations.ConstructionChecksTheConfiguration := by
  intro c
  refine ⟨fun _ => construct_otherArch, construct_wordSize, fun ha hw hbad => ?mismatch, ?fits⟩
  case mismatch =>
    refine construct_topology ha hw fun htop => ?_
    obtain ⟨hbytes, hdvd, ⟨k, hchips⟩, ⟨d, hloc⟩, hlines⟩ := topologyOk_iff_exists_pow.1 htop
    rcases hbad with h | h | h | h | h
    · exact hbytes h
    · exact h hdvd
    · exact h k hchips
    · exact h d hloc
    · exact h hlines
  case fits =>
    intro k d ha hw hbytes hdvd hchips hloc hlines
    obtain rfl := chipSelectBits_of_pow hchips
    obtain rfl := addressingDepth_of_pow hloc
    have htop : c.topologyOk = true := topologyOk_iff_exists_pow.2 ⟨hbytes, hdvd, ⟨_, hchips⟩, ⟨_, hloc⟩, hlines⟩
    exact ⟨construct_arity ha hw htop, fun harity => ⟨_, construct_machine ha hw htop harity⟩⟩

/-- Settles O51: a valid configuration passes every check, and only a valid one does. -/
theorem constructedMachinesHaveValidConfigurations : Obligations.ConstructedMachinesHaveValidConfigurations := by
  refine fun c => ⟨⟨fun hc => ⟨_, hc.construct_eq⟩, fun ⟨_, h⟩ => (construct_next h).1⟩, fun s h => ?_⟩
  obtain ⟨hc, rfl⟩ := construct_next h
  exact ⟨rfl, hc.four_le_numberOfChips⟩

/-! ### The reset state (70_reset_and_hazards.md R254 and R259) -/

/-- Nothing is written yet, so memory is INIT_BYTES (20_memory.md R61). -/
theorem State.byteAt_initial (c : Config) (a : Nat) : (State.initial c).byteAt a = c.initByte a := rfl

theorem initByte_of_getElem? {c : Config} {a : Nat} {b : Byte} (h : c.initBytes[a]? = some b) :
    c.initByte a = b := by
  simp [Config.initByte, List.getD, h]

/-- Settles O52: the machine constructed is `State.initial c`, field by field. -/
theorem constructionLeavesTheResetState : Obligations.ConstructionLeavesTheResetState := by
  intro c s h
  obtain ⟨_, rfl⟩ := construct_next h
  have hmem (a : Nat) (b : Byte) (hb : c.initBytes[a]? = some b) : (State.initial c).byteAt a = b :=
    (State.byteAt_initial c a).trans (initByte_of_getElem? hb)
  exact ⟨rfl, rfl, rfl, rfl, rfl, hmem, rfl, rfl, rfl, rfl, rfl, rfl, rfl, chipSelectVectorIsAllOnes c⟩

/-- Eight chips of 128 bytes, CSB 3 and DEPTH 7 (70_reset_and_hazards.md R254). -/
theorem sourceExample_valid : ConfigValid Config.sourceExample where
  arch := rfl
  wordBytes := .inl rfl
  chips := by decide
  numberOfChips := by decide
  locations := by decide
  lines := by decide
  arity := by decide

/-- Settles O53: the source's example passes every check of construction. -/
theorem resetIsTheSourceExampleConstructed : Obligations.ResetIsTheSourceExampleConstructed :=
  sourceExample_valid.construct_eq

/-- Settles O54: the base case of the invariant, at the source's example. -/
theorem resetMeetsTheInvariant : Obligations.ResetMeetsTheInvariant := State.initial_inv sourceExample_valid

/-! ### The configuration is constant (70_reset_and_hazards.md R253) -/

theorem CommandUpdate.cfg_eq {i : Instr} {s u : State} (h : CommandUpdate i s u) : u.cfg = s.cfg := by
  cases h <;> simp

theorem exec_keeps_cfg {i : Instr} {s t : State} (h : exec i s = .next t) : t.cfg = s.cfg := by
  obtain ⟨u, _, _, hu, rfl⟩ := exec_update h
  exact hu.cfg_eq

theorem step_keeps_cfg {s t : State} (h : step s = .next t) : t.cfg = s.cfg := by
  rcases step_next h with ⟨_, rfl⟩ | ⟨op, _, ⟨f, _, rfl⟩ | ⟨_, rfl⟩⟩ | ⟨i, rest, _, hexec⟩
  · rfl
  · rfl
  · rfl
  · exact exec_keeps_cfg (s := s.setStream rest) hexec

/-- Settles O58: DECODED is computed from the configuration. -/
theorem configurationNeverChanges : Obligations.ConfigurationNeverChanges :=
  fun _ _ h => ⟨step_keeps_cfg h, congrArg decodedVector (step_keeps_cfg h)⟩

/-! ### The segment base and FETCH (70_reset_and_hazards.md R273) -/

/-- A REAL-mode FETCH reaches a chip, or raises what its READ drive raises (44_cpu.md R201). -/
theorem exec_fetch_realMode_next {s t : State} (hf : s.fault = none) (hm : s.cfg.mode = .realMode)
    (h : exec .fetch s = .next t) :
    physicalAddress s < s.cfg.numberOfChips ∨ t.fault = some (.indexError (physicalAddress s)) ∨
    (s.cfg.arch ≠ .x86 ∧ t.fault = some (.invalidSignalError readName)) := by
  change execFetch s = .next t at h
  rcases execFetch_cases hf with ⟨hmode, _⟩ | ⟨_, harch, e⟩ | ⟨_, _, _, e⟩ | ⟨_, _, hN, _⟩ | ⟨_, _, hN, _⟩ |
    ⟨_, _, hN, _⟩
  · exact absurd hm hmode
  · obtain rfl := raise_next (e.symm.trans h)
    exact .inr (.inr ⟨harch, rfl⟩)
  · obtain rfl := raise_next (e.symm.trans h)
    exact .inr (.inl rfl)
  · exact .inl hN
  · exact .inl hN
  · exact .inl hN

/-- Settles O49: SEG of 1 or more puts the address at 16 or above. -/
theorem segmentBaseLimitsFetch : Obligations.SegmentBaseLimitsFetch := by
  intro s t hf hm h
  rcases exec_fetch_realMode_next hf hm h with hN | hindex | ⟨harch, hsignal⟩
  · refine ⟨fun _ => hN, fun _ hsmall hseg => ?_⟩
    rw [physicalAddress] at hN
    omega
  · exact ⟨by simp [hindex], fun _ _ _ => hindex⟩
  · exact ⟨by simp [hsignal], fun hx86 => absurd hx86 harch⟩

end Sys2Proof.Machine
